-- ==== Sys2Proof/Word.lean ====
section
/-! DEFINITION. The machine's word: 32 bits, read as signed two's complement where its numeric value matters
(00_scope.md R2). `s32(w)` of the spec (R7) is `w.toInt`. -/

namespace Sys2Proof

/-- A register, a memory cell, an opcode word or an operand word (00_scope.md R2). -/
abbrev Word := BitVec 32

/-- One byte of the loader's stream, of the input or of the output; the core itself addresses no bytes (20_memory.md R74). -/
abbrev Byte := BitVec 8

end Sys2Proof
end

