-- ==== Sys2Proof/Syntax.lean ====
section
/-! DEFINITION. The 26 instructions of spec/opcode_table.json (30_encoding.md R95), one constructor a row, in the
table's order. Every operand is a whole word, kept as it is stored: a register operand out of range is no other
instruction, it raises IllegalOperand when it runs (R91, R93, R98). -/

namespace Sys2Proof

/-- One constructor per row of the opcode map (30_encoding.md R95). `n`, `a`, `b` are register operand words, `imm` an
immediate and `target` a target word (R91, R94). -/
inductive Instr where
  | nop
  | halt
  | add (n : Word)
  | sub (n : Word)
  | mul (n : Word)
  | div (n : Word)
  | inc (n : Word)
  | dec (n : Word)
  | loop (target : Word)
  | mov (n imm : Word)
  | load (n imm : Word)
  | store (n imm : Word)
  /-- `in` of the table; the trailing underscore keeps it apart from Lean's keyword. -/
  | in_ (n : Word)
  | get (n : Word)
  | out (n : Word)
  | put (n : Word)
  | swap (a b : Word)
  | push (n : Word)
  | pop (n : Word)
  | cmp (a b : Word)
  | jmp (target : Word)
  | jz (target : Word)
  | jnz (target : Word)
  | jgt (target : Word)
  | call (target : Word)
  | ret
deriving DecidableEq, Repr

/-- The column "needs" of the opcode map (30_encoding.md R95, R96). -/
inductive Capability where
  | base
  | extJmp
  | extCall
deriving DecidableEq, Repr

/-- Which extension an instruction needs (30_encoding.md R95, R96). -/
def Instr.needs : Instr → Capability
  | .nop => .base
  | .halt => .base
  | .add _ => .base
  | .sub _ => .base
  | .mul _ => .base
  | .div _ => .base
  | .inc _ => .base
  | .dec _ => .base
  | .loop _ => .base
  | .mov _ _ => .base
  | .load _ _ => .base
  | .store _ _ => .base
  | .in_ _ => .base
  | .get _ => .base
  | .out _ => .base
  | .put _ => .base
  | .swap _ _ => .base
  | .push _ => .base
  | .pop _ => .base
  | .cmp _ _ => .extJmp
  | .jmp _ => .extJmp
  | .jz _ => .extJmp
  | .jnz _ => .extJmp
  | .jgt _ => .extJmp
  | .call _ => .extCall
  | .ret => .extCall

end Sys2Proof
end

