-- ==== Sys2Proof/WellFormed.lean ====
section
/-! DEFINITION. Which instructions carry only register operands that name a register (30_encoding.md R93, R98). An
ill-formed one is still decoded and run: it raises IllegalOperand (00_scope.md R11). -/

namespace Sys2Proof

/-- The operand word names a general register: 0 to 3 as a signed number (00_scope.md R11, `Reg`). -/
def isRegOperand (w : Word) : Bool := decide (0 ≤ w.toInt) && decide (w.toInt ≤ 3)

/-- The operand word names a general register or result: 0 to 4 as a signed number (00_scope.md R11, `RegX`). -/
def isRegXOperand (w : Word) : Bool := decide (0 ≤ w.toInt) && decide (w.toInt ≤ 4)

/-- Every register operand of the instruction is in its range (30_encoding.md R93); immediates and targets may be any
word (R94, R98). -/
def Instr.wellFormed : Instr → Bool
  | .nop => true
  | .halt => true
  | .add n => isRegOperand n
  | .sub n => isRegOperand n
  | .mul n => isRegOperand n
  | .div n => isRegOperand n
  | .inc n => isRegOperand n
  | .dec n => isRegOperand n
  | .loop _ => true
  | .mov n _ => isRegOperand n
  | .load n _ => isRegOperand n
  | .store n _ => isRegOperand n
  | .in_ n => isRegOperand n
  | .get n => isRegOperand n
  | .out n => isRegOperand n
  | .put n => isRegOperand n
  | .swap a b => isRegOperand a && isRegOperand b
  | .push n => isRegOperand n
  | .pop n => isRegOperand n
  | .cmp a b => isRegXOperand a && isRegXOperand b
  | .jmp _ => true
  | .jz _ => true
  | .jnz _ => true
  | .jgt _ => true
  | .call _ => true
  | .ret => true

end Sys2Proof
end

