-- ==== Sys2Proof/Decode.lean ====
section
/-! DEFINITION. The instruction decoder (30_encoding.md R90 to R99) and, after it, the encoder. Words come in address
order, the opcode word first. -/

namespace Sys2Proof

/-- Why a list of words is no instruction. -/
inductive DecodeError where
  /-- The opcode word is none of the numbers 0 to 25 (30_encoding.md R92, R97). -/
  | unrecognisedOpcode (op : Word)
  /-- The list ends before the words of the format (30_encoding.md R91). A step always hands over three words. -/
  | truncated
deriving DecidableEq, Repr

/-- Formats R and T: one operand word after the opcode word (30_encoding.md R91). -/
def decodeOne (make : Word → Instr) : List Word → Except DecodeError (Instr × List Word)
  | w :: rest => .ok (make w, rest)
  | [] => .error .truncated

/-- Formats RI and RR: two operand words after the opcode word, in address order (30_encoding.md R91, D4). -/
def decodeTwo (make : Word → Word → Instr) : List Word → Except DecodeError (Instr × List Word)
  | w1 :: w2 :: rest => .ok (make w1 w2, rest)
  | _ => .error .truncated

/-- The opcode map (30_encoding.md R95): all 32 bits of the opcode word are compared (R92), the numbers are D1. -/
def decode : List Word → Except DecodeError (Instr × List Word)
  | [] => .error .truncated
  | op :: rest =>
    match op.toNat with
    | 0 => .ok (.nop, rest)
    | 1 => .ok (.halt, rest)
    | 2 => decodeOne .add rest
    | 3 => decodeOne .sub rest
    | 4 => decodeOne .mul rest
    | 5 => decodeOne .div rest
    | 6 => decodeOne .inc rest
    | 7 => decodeOne .dec rest
    | 8 => decodeOne .loop rest
    | 9 => decodeTwo .mov rest
    | 10 => decodeTwo .load rest
    | 11 => decodeTwo .store rest
    | 12 => decodeOne .in_ rest
    | 13 => decodeOne .get rest
    | 14 => decodeOne .out rest
    | 15 => decodeOne .put rest
    | 16 => decodeTwo .swap rest
    | 17 => decodeOne .push rest
    | 18 => decodeOne .pop rest
    | 19 => decodeTwo .cmp rest
    | 20 => decodeOne .jmp rest
    | 21 => decodeOne .jz rest
    | 22 => decodeOne .jnz rest
    | 23 => decodeOne .jgt rest
    | 24 => decodeOne .call rest
    | 25 => .ok (.ret, rest)
    | _ => .error (.unrecognisedOpcode op)

/-- The opcode number of an instruction (30_encoding.md R95, D1). -/
def Instr.opcode : Instr → Nat
  | .nop => 0
  | .halt => 1
  | .add _ => 2
  | .sub _ => 3
  | .mul _ => 4
  | .div _ => 5
  | .inc _ => 6
  | .dec _ => 7
  | .loop _ => 8
  | .mov _ _ => 9
  | .load _ _ => 10
  | .store _ _ => 11
  | .in_ _ => 12
  | .get _ => 13
  | .out _ => 14
  | .put _ => 15
  | .swap _ _ => 16
  | .push _ => 17
  | .pop _ => 18
  | .cmp _ _ => 19
  | .jmp _ => 20
  | .jz _ => 21
  | .jnz _ => 22
  | .jgt _ => 23
  | .call _ => 24
  | .ret => 25

/-- The operand words of an instruction in address order (30_encoding.md R91). -/
def Instr.operands : Instr → List Word
  | .nop => []
  | .halt => []
  | .add n => [n]
  | .sub n => [n]
  | .mul n => [n]
  | .div n => [n]
  | .inc n => [n]
  | .dec n => [n]
  | .loop target => [target]
  | .mov n imm => [n, imm]
  | .load n imm => [n, imm]
  | .store n imm => [n, imm]
  | .in_ n => [n]
  | .get n => [n]
  | .out n => [n]
  | .put n => [n]
  | .swap a b => [a, b]
  | .push n => [n]
  | .pop n => [n]
  | .cmp a b => [a, b]
  | .jmp target => [target]
  | .jz target => [target]
  | .jnz target => [target]
  | .jgt target => [target]
  | .call target => [target]
  | .ret => []

/-- The words of an instruction: the opcode word, then its operand words (30_encoding.md R90, R91). -/
def encode (i : Instr) : List Word := BitVec.ofNat 32 i.opcode :: i.operands

/-- How many words an instruction takes (30_encoding.md R90). -/
def Instr.lengthWords (i : Instr) : Nat := (encode i).length

/-- The three words of an instruction given as one number, word 0 in its low 32 bits; only the low `nbits` bits count,
the others are 0. -/
def tableWords (nbits w : Nat) : List Word :=
  let v := w % 2 ^ nbits
  [BitVec.ofNat 32 v, BitVec.ofNat 32 (v / 2 ^ 32), BitVec.ofNat 32 (v / 2 ^ 64)]

/-- The instruction this decoder reads from an opcode-table word. -/
def decodeTableWord (nbits w : Nat) : Option Instr :=
  match decode (tableWords nbits w) with
  | .ok (i, _) => some i
  | .error _ => none

end Sys2Proof
end

