-- ==== Sys2Proof/Config.lean ====
section
/-! DEFINITION. What is fixed for every core (00_scope.md R6), and the one value the spec leaves open. -/

namespace Sys2Proof.Config

/-- BLOCK_WORDS: the region's size is a multiple of it (00_scope.md R6). -/
def blockWords : Nat := 1024

/-- The largest region: MEM_WORDS is at most 2^31 - 1024 (00_scope.md R6, D18). -/
def maxMemWords : Nat := 2 ^ 31 - 1024

/-- IN_MALFORMED_CONSUMES (D15, U9; 10_state.md R50): how many of the unread bytes the reference input device has
consumed when it answers Malformed. A FREE VALUE: the spec leaves it open, so it has no body (log 7). -/
opaque malformedConsumed : List Byte → Nat

end Sys2Proof.Config
end

