-- ==== Sys2Proof/Machine/State.lean ====
section
/-! DEFINITION. The state of the core as plain data: everything 00_scope.md R18 and 10_state.md R20 name, the devices'
own state beside it, and the machine right after reset. -/

namespace Sys2Proof.Machine

/-- The four general registers by name; indices 0 to 3 in this order (10_state.md R21, D3). -/
inductive GReg where
  | a
  | b
  | c
  | d
deriving DecidableEq, Repr

/-- A register operand of `cmp`: a general register, or result at index 4 (10_state.md R28, 46_ext_jump_compare.md R220). -/
inductive Source where
  | gpr (r : GReg)
  | result
deriving DecidableEq, Repr

/-- The six faults of the machine (60_exceptions.md R251). Each is a value of status, entered by `State.raise`; none
stops the model. -/
inductive Cause where
  | illegalInstruction
  | illegalOperand
  | invalidAddress
  | invalidStackOperation
  | divByZero
  | ioError
deriving DecidableEq, Repr

/-- The eight values of the status register (10_state.md R31): Running, Halted and the six faults. -/
inductive Status where
  | running
  | halted
  | faulted (c : Cause)
deriving DecidableEq, Repr

/-- What stops the model where the spec gives no next state. -/
inductive Fault where
  /-- A word access outside 0 to MEM_WORDS-1, which no rule defines (00_scope.md R9). Raised by `State.memRead` and
  `State.memWrite`; only in states that break the configuration bounds (20_memory.md R71). Safe. -/
  | outsideRegion
  /-- `in` or `get` asked and the input source never answers: the step does not end (10_state.md R51, D24, U13).
  Raised by `State.readInt` and `State.readByte`. Safe. -/
  | inputUnanswered
deriving DecidableEq, Repr

/-- What the model gives no meaning. -/
inductive Refusal where
  /-- An instruction with no meaning yet; raised by an arm of `exec` only. No arm raises it now. Safe. -/
  | notModelled (mnemonic : String)
  /-- An operation on a destroyed core (10_state.md R39, 70_reset_and_hazards.md R295, D26, U21). Raised by `step`, `resetCore`,
  `destroy`, `run` and `inspect`. Safe. -/
  | destroyed
  /-- `create` with arguments outside the bounds of 70_reset_and_hazards.md R291 (U20). Raised by `create`. Safe. -/
  | createBounds
  /-- A query of result on a core without EXT_JMP (10_state.md R28, D27). Raised by `inspect`. Safe. -/
  | notInspectable
deriving DecidableEq, Repr

/-- Why a check of an instruction's handler ends the step (40_cycle.md R123): a fault of the machine, or a stop of the model. -/
inductive Stop where
  | raised (c : Cause)
  | stuck (f : Fault)
deriving DecidableEq, Repr

/-- The answers to ReadInt (10_state.md R48). -/
inductive IntAnswer where
  | int (z : Int)
  | eof
  | malformed
deriving DecidableEq, Repr

/-- The answers to ReadByte (10_state.md R49). -/
inductive ByteAnswer where
  | byte (b : Byte)
  | eof
deriving DecidableEq, Repr

/-- The external input source (10_state.md R48 to R51), as far as what it will still answer. -/
inductive InputSource where
  /-- The reference device of D15 and 44_io.md R192, with the bytes of its stream it has not consumed. -/
  | stream (unread : List Byte)
  /-- Any source at all, given by the answers it is going to make to the ReadInt and to the ReadByte requests (10_state.md R50:
  two independent oracles). Where a list ends the source never answers again (R51). -/
  | script (ints : List IntAnswer) (bytes : List ByteAnswer)
deriving DecidableEq, Repr

/-- The memory region: (word address, word) pairs. The word is the smallest addressable unit (20_memory.md R60, R74; log 1). -/
abbrev Memory := List (Nat × Word)

/-- The whole state (10_state.md R20, 00_scope.md R18). -/
structure State where
  /-- A, index 0 (10_state.md R21). -/
  regA : Word
  /-- B, index 1 (10_state.md R21). -/
  regB : Word
  /-- C, index 2 (10_state.md R21). -/
  regC : Word
  /-- D, index 3 (10_state.md R21). -/
  regD : Word
  /-- The result pseudo-register (10_state.md R28); dead when `extJmp` is false (log 15). -/
  result : Word
  /-- The instruction pointer (10_state.md R25). -/
  pc : Word
  /-- The stack-size counter (10_state.md R33). -/
  sn : Word
  /-- The status register (10_state.md R31). -/
  status : Status
  /-- Address of stack slot 0 (10_state.md R35). -/
  stackBottom : Word
  /-- How many words the stack may hold (10_state.md R35). -/
  capacity : Word
  /-- stackBottom - capacity, computed at create (10_state.md R35). -/
  stackLimit : Word
  /-- MEM_WORDS (00_scope.md R6, 20_memory.md R60). -/
  memWords : Nat
  /-- EXT_JMP (00_scope.md R6). -/
  extJmp : Bool
  /-- EXT_CALL (00_scope.md R6). -/
  extCall : Bool
  /-- The memory region (20_memory.md R60). -/
  memory : Memory
  /-- Created and not yet destroyed (10_state.md R39). -/
  live : Bool
  /-- The external input source (10_state.md R48 to R51). -/
  input : InputSource
  /-- The bytes emitted so far, oldest first (10_state.md R52, R53). -/
  output : List Byte
deriving DecidableEq, Repr

/-- The machine right after reset (10_state.md R55) in the reference configuration of 95_test_vectors.md (log 2), with
nothing to read and nothing emitted (log 3). -/
def State.reset : State where
  regA := 0
  regB := 0
  regC := 0
  regD := 0
  result := 0
  pc := 0
  sn := 0
  status := .running
  stackBottom := 1023
  capacity := 16
  stackLimit := 1007
  memWords := 1024
  extJmp := true
  extCall := true
  memory := []
  live := true
  input := .stream []
  output := []

end Sys2Proof.Machine
end

