-- ==== Sys2Proof/Machine/Ops.lean ====
section
/-! DEFINITION. The named operations over memory, registers and status that every instruction is written in: the memory
primitives (00_scope.md R9), the checked fetch (R10), fault entry (R12, 60_exceptions.md R256) and the only way out of a
terminal status, the host's reset (70_reset_and_hazards.md R292). -/

namespace Sys2Proof.Machine

/-- What a step or a meaning answers. -/
abbrev Out := Host.Outcome State Fault Refusal

/-- A value, or the reason the step ends before it is reached (40_cycle.md R123). -/
abbrev Check (α : Type) := Except Stop α

/-! ### Memory -/

/-- What a word that is not listed holds: the region beyond the program is zero-filled (70_reset_and_hazards.md R300). -/
def Memory.unlisted : Word := 0

/-- The word at an address. -/
def Memory.read : Memory → Nat → Word
  | [], _ => Memory.unlisted
  | (b, u) :: rest, a => if a = b then u else Memory.read rest a

/-- The memory without a listed word at `a`. -/
def Memory.erase (m : Memory) (a : Nat) : Memory := m.filter fun p => p.1 ≠ a

/-- The memory with the word `v` listed at `a`, in address order. -/
def Memory.insert : Memory → Nat → Word → Memory
  | [], a, v => [(a, v)]
  | (b, u) :: rest, a, v =>
    if a < b then (a, v) :: (b, u) :: rest
    else if a = b then (a, v) :: rest
    else (b, u) :: Memory.insert rest a v

/-- The memory after `v` is stored at `a`; storing what an unlisted word holds removes the entry. -/
def Memory.write (m : Memory) (a : Nat) (v : Word) : Memory :=
  if v = Memory.unlisted then m.erase a else m.insert a v

/-- The memory with 0 stored at every address from `lo` to `hi`, both inclusive (70_reset_and_hazards.md R292). -/
def Memory.zeroRange (m : Memory) (lo hi : Int) : Memory :=
  m.filter fun p => ¬(lo ≤ (p.1 : Int) ∧ (p.1 : Int) ≤ hi)

/-- The canonical form: addresses strictly rising, and no entry equal to what an unlisted word holds. -/
abbrev Memory.wf (m : Memory) : Prop :=
  m.Pairwise (fun p q => p.1 < q.1) ∧ ∀ p ∈ m, p.2 ≠ Memory.unlisted

/-- No word is listed at or above `n`. -/
abbrev Memory.within (m : Memory) (n : Nat) : Prop := ∀ p ∈ m, p.1 < n

/-- `MemRead(addr, 1)` (00_scope.md R9). -/
def State.memRead (addr : Int) (s : State) : Check Word :=
  if 0 ≤ addr ∧ addr < s.memWords then .ok (s.memory.read addr.toNat) else .error (.stuck .outsideRegion)

/-- `MemWrite(addr, 1, v)` (00_scope.md R9). -/
def State.memWrite (addr : Int) (v : Word) (s : State) : Check State :=
  if 0 ≤ addr ∧ addr < s.memWords then .ok { s with memory := s.memory.write addr.toNat v }
  else .error (.stuck .outsideRegion)

/-! ### Registers -/

/-- `x[i]` (00_scope.md R8). -/
def State.get (s : State) : GReg → Word
  | .a => s.regA
  | .b => s.regB
  | .c => s.regC
  | .d => s.regD

/-- `x[i] <- v` (00_scope.md R8). -/
def State.set (s : State) (r : GReg) (v : Word) : State :=
  match r with
  | .a => { s with regA := v }
  | .b => { s with regB := v }
  | .c => { s with regC := v }
  | .d => { s with regD := v }

/-- The pc moved past the instruction's `k` words (10_state.md R26). -/
def State.advance (s : State) (k : Nat) : State := { s with pc := s.pc + BitVec.ofNat 32 k }

/-- `pc <- t` (00_scope.md R8): any word, unchecked (10_state.md R27, 45_control_flow.md R210 item 4). -/
def State.jumpTo (s : State) (t : Word) : State := { s with pc := t }

/-! ### Status, fault entry and the way out -/

/-- The status code (10_state.md R31, D2). -/
def Status.code : Status → Nat
  | .running => 0
  | .halted => 1
  | .faulted .illegalInstruction => 2
  | .faulted .illegalOperand => 3
  | .faulted .invalidAddress => 4
  | .faulted .invalidStackOperation => 5
  | .faulted .divByZero => 6
  | .faulted .ioError => 7

/-- Any of the six terminal values other than Halted (00_scope.md R16, 60_exceptions.md R259). -/
def Status.isFault : Status → Bool
  | .running => false
  | .halted => false
  | .faulted _ => true

/-- FAULT ENTRY, for every fault of the machine: status takes the fault's value and nothing else is written
(00_scope.md R12, 60_exceptions.md R256). -/
def State.raise (s : State) (c : Cause) : State := { s with status := .faulted c }

/-- RESET by the host, the only exit from a terminal status (60_exceptions.md R258; 70_reset_and_hazards.md R292, R293): the
stack zone from stackLimit to stackBottom is zeroed, every register, pc, sn and status take their creation values; the
rest of memory, the configuration and the devices are left alone. `result` is written only where it exists. -/
def resetCore (s : State) : Out :=
  if s.live then
    .next { s with
      memory := s.memory.zeroRange s.stackLimit.toInt s.stackBottom.toInt
      regA := 0
      regB := 0
      regC := 0
      regD := 0
      result := if s.extJmp then 0 else s.result
      sn := 0
      pc := 0
      status := .running }
  else .refused .destroyed

/-- The end of a handler (40_cycle.md R123): its next state, or the fault its first failing check raises in the state the
step began with, or the model's stop. -/
def State.conclude (s : State) (r : Check State) : Out :=
  match r with
  | .ok t => .next t
  | .error (.raised c) => .next (s.raise c)
  | .error (.stuck f) => .fault f

/-! ### Fetch and recognition -/

/-- `Fetch(k)` (00_scope.md R10): the word at pc + k, if that address is below stackLimit and not negative; the sum is exact. -/
def State.fetch (k : Nat) (s : State) : Check Word :=
  if 0 ≤ s.pc.toInt + k ∧ s.pc.toInt + k < s.stackLimit.toInt then s.memRead (s.pc.toInt + k)
  else .error (.raised .invalidAddress)

/-- The word the decoder is shown for pc + k: the fetched word, or 0 where `Fetch(k)` fails. No meaning uses an operand
before its own `Fetch` of it has passed, so a shown 0 is never used (log 12). -/
def State.shownWord (k : Nat) (s : State) : Word :=
  match s.fetch k with
  | .ok w => w
  | .error _ => 0

/-- The words shown to the decoder, in address order; no instruction is longer than three (30_encoding.md R90). -/
def State.shownWords (s : State) : List Word := [s.shownWord 0, s.shownWord 1, s.shownWord 2]

/-- A handler's fetch of its `k`-th operand word (40_cycle.md R123 item 1): the decoded operand `w`, once `Fetch(k)` has passed. -/
def State.operand (k : Nat) (w : Word) (s : State) : Check Word := do
  let _ ← s.fetch k
  pure w

/-- Recognition under the extensions (30_encoding.md R96, R97): an opcode whose extension is off is no opcode. -/
def State.recognise (need : Capability) (s : State) : Check Unit :=
  match need with
  | .base => .ok ()
  | .extJmp => if s.extJmp then .ok () else .error (.raised .illegalInstruction)
  | .extCall => if s.extCall then .ok () else .error (.raised .illegalInstruction)

end Sys2Proof.Machine
end

