-- ==== Sys2Proof/Machine/Operands.lean ====
section
/-! DEFINITION. The operand forms: register operands (00_scope.md R11) and the stack address calculator
(20_memory.md R66 to R71). Addresses are exact integers, checked before they are used (20_memory.md R72). -/

namespace Sys2Proof.Machine

/-- The index of a general register (10_state.md R21, D3). -/
def GReg.index : GReg → Word
  | .a => 0
  | .b => 1
  | .c => 2
  | .d => 3

/-- The index of a `cmp` operand; result is 4 (10_state.md R28, D3). -/
def Source.index : Source → Word
  | .gpr r => r.index
  | .result => 4

/-- `Reg(w)` (00_scope.md R11): the whole operand word is the index (30_encoding.md R93). -/
def reg (w : Word) : Check GReg :=
  if w.toInt = 0 then .ok .a
  else if w.toInt = 1 then .ok .b
  else if w.toInt = 2 then .ok .c
  else if w.toInt = 3 then .ok .d
  else .error (.raised .illegalOperand)

/-- `RegX(w)` (00_scope.md R11): as `Reg`, and 4 names result; used by `cmp` alone. -/
def regX (w : Word) : Check Source :=
  if w.toInt = 4 then .ok .result else (reg w).map .gpr

/-- The value of a `cmp` operand (00_scope.md R8). -/
def State.source (s : State) : Source → Word
  | .gpr r => s.get r
  | .result => s.result

/-- The address of stack slot `i` (20_memory.md R66). -/
def State.slot (s : State) (i : Int) : Int := s.stackBottom.toInt - i

/-- The address a push writes: the next free slot, if the stack is not full (20_memory.md R68). -/
def State.pushAddress (s : State) : Check Int :=
  if s.sn.toInt ≥ s.capacity.toInt then .error (.raised .invalidStackOperation) else .ok (s.slot s.sn.toInt)

/-- The address a pop reads: the top slot, if the stack is not empty (20_memory.md R69). -/
def State.popAddress (s : State) : Check Int :=
  if s.sn.toInt ≤ 0 then .error (.raised .invalidStackOperation) else .ok (s.slot (s.sn.toInt - 1))

/-- The offset of `load` and `store`: immediate plus D, never wrapped (20_memory.md R70). -/
def State.offset (imm : Word) (s : State) : Int := imm.toInt + s.regD.toInt

/-- The address `load` reads and `store` writes: slot sn - offset - 1, if it is a live slot (20_memory.md R70). -/
def State.indexedAddress (imm : Word) (s : State) : Check Int :=
  if s.offset imm < 0 then .error (.raised .invalidStackOperation)
  else if s.sn.toInt - s.offset imm - 1 < 0 then .error (.raised .invalidStackOperation)
  else .ok (s.slot (s.sn.toInt - s.offset imm - 1))

/-- The write and count of `push` and `call` (20_memory.md R68). -/
def State.pushWord (v : Word) (s : State) : Check State := do
  let a ← s.pushAddress
  let t ← s.memWrite a v
  pure { t with sn := t.sn + 1 }

/-- The read and count of `pop` and `ret` (20_memory.md R69): the word, and the state with one word fewer; the vacated word
stays in memory (D21). -/
def State.popWord (s : State) : Check (Word × State) := do
  let a ← s.popAddress
  let v ← s.memRead a
  pure (v, { s with sn := s.sn - 1 })

end Sys2Proof.Machine
end

