-- ==== Sys2Proof/Machine/Alu.lean ====
section
/-! DEFINITION. The ALU's integer laws (41_arithmetic.md R140): the exact integer result, then `wrap32`. Overflow raises
nothing and sets nothing. -/

namespace Sys2Proof.Machine

/-- `wrap32(z)`: the word congruent to `z` modulo 2^32 (00_scope.md R7). -/
def wrap32 (z : Int) : Word := BitVec.ofInt 32 z

/-- `zext_8` of an input byte (00_scope.md R7, 44_io.md R194). -/
def zext8 (b : Byte) : Word := b.setWidth 32

/-- add (41_arithmetic.md R140, D6). -/
def aluAdd (x y : Word) : Word := wrap32 (x.toInt + y.toInt)

/-- sub, and the difference of cmp (41_arithmetic.md R140, D6). -/
def aluSub (x y : Word) : Word := wrap32 (x.toInt - y.toInt)

/-- mul: the low 32 bits of the product (41_arithmetic.md R140, D6). -/
def aluMul (x y : Word) : Word := wrap32 (x.toInt * y.toInt)

/-- div: DivByZero for divisor 0, else the quotient rounded toward zero, wrapped (41_arithmetic.md R140, R144, D7, D8). -/
def aluDiv (x y : Word) : Check Word :=
  if y.toInt = 0 then .error (.raised .divByZero) else .ok (wrap32 (x.toInt.tdiv y.toInt))

/-- inc (41_arithmetic.md R140, D6). -/
def aluInc (x : Word) : Word := wrap32 (x.toInt + 1)

/-- dec (41_arithmetic.md R140, D6). -/
def aluDec (x : Word) : Word := wrap32 (x.toInt - 1)

end Sys2Proof.Machine
end

