-- ==== Sys2Proof/Machine/Flags.lean ====
section
/-! DEFINITION. The machine's only flag-like state is the result pseudo-register (10_state.md R28 to R30): how it is
written and what the conditional transfers test. -/

namespace Sys2Proof.Machine

/-- The write to result that the six arithmetic instructions and `cmp` make, where result exists (10_state.md R29). -/
def State.setResult (s : State) (v : Word) : State := { s with result := if s.extJmp then v else s.result }

/-- The write of an arithmetic result: the destination, mirrored into result under EXT_JMP (41_arithmetic.md R147). -/
def State.setMirrored (s : State) (r : GReg) (v : Word) : State := (s.set r v).setResult v

/-- The test of `loop`: C is not 0 (45_control_flow.md R211). -/
def State.condLoop (s : State) : Bool := decide (s.regC.toInt ≠ 0)

/-- The test of `jz` (46_ext_jump_compare.md R222). -/
def State.condZero (s : State) : Bool := decide (s.result.toInt = 0)

/-- The test of `jnz` (46_ext_jump_compare.md R222). -/
def State.condNonZero (s : State) : Bool := decide (s.result.toInt ≠ 0)

/-- The test of `jgt`, signed (46_ext_jump_compare.md R222). -/
def State.condPositive (s : State) : Bool := decide (s.result.toInt > 0)

/-- A conditional transfer (45_control_flow.md R210 item 5): the condition first; the operand word is fetched only when the
transfer is taken; not taken advances by 2. -/
def State.branch (taken : Bool) (target : Word) (s : State) : Check State :=
  if taken then do
    let t ← s.operand 1 target
    pure (s.jumpTo t)
  else pure (s.advance 2)

end Sys2Proof.Machine
end

