-- ==== Sys2Proof/Machine/Arithmetic.lean ====
section
/-! DEFINITION. add, sub, mul, div, inc, dec (41_arithmetic.md R140 to R147). -/

namespace Sys2Proof.Machine

/-- `add n` (41_arithmetic.md R141). -/
def execAdd (w : Word) (s : State) : Out := s.conclude do
  let w ← s.operand 1 w
  let n ← reg w
  pure ((s.setMirrored .a (aluAdd s.regA (s.get n))).advance 2)

/-- `sub n` (41_arithmetic.md R142). -/
def execSub (w : Word) (s : State) : Out := s.conclude do
  let w ← s.operand 1 w
  let n ← reg w
  pure ((s.setMirrored .a (aluSub s.regA (s.get n))).advance 2)

/-- `mul n` (41_arithmetic.md R143). -/
def execMul (w : Word) (s : State) : Out := s.conclude do
  let w ← s.operand 1 w
  let n ← reg w
  pure ((s.setMirrored .a (aluMul s.regA (s.get n))).advance 2)

/-- `div n` (41_arithmetic.md R144). -/
def execDiv (w : Word) (s : State) : Out := s.conclude do
  let w ← s.operand 1 w
  let n ← reg w
  let q ← aluDiv s.regA (s.get n)
  pure ((s.setMirrored .a q).advance 2)

/-- `inc n` (41_arithmetic.md R145). -/
def execInc (w : Word) (s : State) : Out := s.conclude do
  let w ← s.operand 1 w
  let n ← reg w
  pure ((s.setMirrored n (aluInc (s.get n))).advance 2)

/-- `dec n` (41_arithmetic.md R146). -/
def execDec (w : Word) (s : State) : Out := s.conclude do
  let w ← s.operand 1 w
  let n ← reg w
  pure ((s.setMirrored n (aluDec (s.get n))).advance 2)

end Sys2Proof.Machine
end

