-- ==== Sys2Proof/Machine/CallReturn.lean ====
section
/-! DEFINITION. The extension EXT_CALL: call and ret (47_ext_call_return.md R240 to R242). Each is recognised only when
EXT_CALL is true (30_encoding.md R96). -/

namespace Sys2Proof.Machine

/-- `call target` (47_ext_call_return.md R241): the operand word first, then the stack check, then the push of pc + 2. -/
def execCall (target : Word) (s : State) : Out := s.conclude do
  s.recognise .extCall
  let t ← s.operand 1 target
  let u ← s.pushWord (s.pc + 2)
  pure (u.jumpTo t)

/-- `ret` (47_ext_call_return.md R242): the popped word is assigned to pc whatever it is. -/
def execRet (s : State) : Out := s.conclude do
  s.recognise .extCall
  let (v, t) ← s.popWord
  pure (t.jumpTo v)

end Sys2Proof.Machine
end

