-- ==== Sys2Proof/Machine/Cycle.lean ====
section
/-! DEFINITION. nop and halt (40_cycle.md R124, R125). -/

namespace Sys2Proof.Machine

/-- `nop` (40_cycle.md R124). -/
def execNop (s : State) : Out := s.conclude (pure (s.advance 1))

/-- `halt` (40_cycle.md R125): the pc moves on although the machine stops. -/
def execHalt (s : State) : Out := s.conclude (pure ({ s with status := .halted }.advance 1))

end Sys2Proof.Machine
end

