-- ==== Sys2Proof/Machine/Flow.lean ====
section
/-! DEFINITION. loop (45_control_flow.md R210, R211). -/

namespace Sys2Proof.Machine

/-- `loop target` (45_control_flow.md R211): C is tested and not changed. -/
def execLoop (target : Word) (s : State) : Out := s.conclude (s.branch s.condLoop target)

end Sys2Proof.Machine
end

