-- ==== Sys2Proof/Machine/Devices.lean ====
section
/-! DEFINITION. The input source and the output sink as the core sees them (10_state.md R48 to R53, 00_scope.md R13), with
the reference input device of D15 (44_io.md R192). -/

namespace Sys2Proof.Machine

/-- The white space the reference device skips: 0x20 and 0x09 to 0x0D (44_io.md R192). -/
def isSpace (b : Byte) : Bool := b == 0x20#8 || (decide (0x09 ≤ b.toNat) && decide (b.toNat ≤ 0x0D))

/-- An ASCII digit, 0x30 to 0x39 (44_io.md R192). -/
def isDigit (b : Byte) : Bool := decide (0x30 ≤ b.toNat) && decide (b.toNat ≤ 0x39)

/-- The decimal value of a run of ASCII digits. -/
def digitsValue (ds : List Byte) : Nat := ds.foldl (fun acc d => 10 * acc + (d.toNat - 0x30)) 0

/-- One optional sign (44_io.md R192): whether the number is negative, and the bytes after the sign. -/
def takeSign : List Byte → Bool × List Byte
  | [] => (false, [])
  | b :: rest => if b = 0x2D#8 then (true, rest) else if b = 0x2B#8 then (false, rest) else (false, b :: rest)

/-- The reference device's answer to ReadInt and what it leaves unread (44_io.md R192, D15): skip white space; Eof at the end
of the stream; an optional sign; the longest run of digits, an empty run being Malformed; the byte after the digits stays.
What a Malformed read consumed is a free value (D15, U9; log 7). -/
def streamReadInt (unread : List Byte) : IntAnswer × List Byte :=
  match unread.dropWhile isSpace with
  | [] => (.eof, [])
  | b :: rest =>
    let signed := takeSign (b :: rest)
    let ds := signed.2.takeWhile isDigit
    if ds = [] then (.malformed, unread.drop (Config.malformedConsumed unread))
    else (.int (if signed.1 then -(digitsValue ds : Int) else digitsValue ds), signed.2.dropWhile isDigit)

/-- The reference device's answer to ReadByte (10_state.md R49, D15): the next byte, consumed, or Eof. -/
def streamReadByte : List Byte → ByteAnswer × List Byte
  | [] => (.eof, [])
  | b :: rest => (.byte b, rest)

/-- `ReadInt()` (00_scope.md R13, 10_state.md R48): the source's answer and the source after it; `none` where it never answers
(R51). Once a source has answered Eof it is at its end for good (44_io.md R191; log 6). -/
def InputSource.readInt : InputSource → Option (IntAnswer × InputSource)
  | .stream unread => some ((streamReadInt unread).1, .stream (streamReadInt unread).2)
  | .script [] _ => none
  | .script (.eof :: _) _ => some (.eof, .stream [])
  | .script (.int z :: ints) bytes => some (.int z, .script ints bytes)
  | .script (.malformed :: ints) bytes => some (.malformed, .script ints bytes)

/-- `ReadByte()` (00_scope.md R13, 10_state.md R49): as `readInt`, for the next raw byte. -/
def InputSource.readByte : InputSource → Option (ByteAnswer × InputSource)
  | .stream unread => some ((streamReadByte unread).1, .stream (streamReadByte unread).2)
  | .script _ [] => none
  | .script _ (.eof :: _) => some (.eof, .stream [])
  | .script ints (.byte b :: bytes) => some (.byte b, .script ints bytes)

/-- The request ReadInt of a step: the answer, and the state with the source after it. A request that is never answered
leaves the step unfinished (10_state.md R51, D24; log 8). -/
def State.readInt (s : State) : Check (IntAnswer × State) :=
  match s.input.readInt with
  | some (answer, input) => .ok (answer, { s with input := input })
  | none => .error (.stuck .inputUnanswered)

/-- The request ReadByte of a step (10_state.md R49, R51). -/
def State.readByte (s : State) : Check (ByteAnswer × State) :=
  match s.input.readByte with
  | some (answer, input) => .ok (answer, { s with input := input })
  | none => .error (.stuck .inputUnanswered)

/-- What `in` and `get` do at end of input: C first, then the target (44_io.md R191, R194, D14). -/
def State.setEndOfInput (s : State) (r : GReg) : State := (s.set .c 0).set r (-1)

/-- The range check of `in` (10_state.md R48): the integer fits a signed 32-bit word. -/
def fitsWord (z : Int) : Bool := decide (-2 ^ 31 ≤ z) && decide (z ≤ 2 ^ 31 - 1)

/-- The ASCII digits of `n`, most significant first, with no leading zero, at most `fuel` of them (10_state.md R52). -/
def decDigits : Nat → Nat → List Byte
  | 0, _ => []
  | fuel + 1, n =>
    if n < 10 then [BitVec.ofNat 8 (0x30 + n)] else decDigits fuel (n / 10) ++ [BitVec.ofNat 8 (0x30 + n % 10)]

/-- `dec(v)` (10_state.md R52, D16): the decimal text of a signed word; no word has more than ten digits. -/
def decText (v : Word) : List Byte :=
  if v.toInt < 0 then 0x2D#8 :: decDigits 10 v.toInt.natAbs else decDigits 10 v.toInt.natAbs

/-- `Emit(bytes)` (00_scope.md R13): the sink accepts everything (10_state.md R53, D30). -/
def State.emit (s : State) (bytes : List Byte) : State := { s with output := s.output ++ bytes }

end Sys2Proof.Machine
end

