-- ==== Sys2Proof/Machine/Io.lean ====
section
/-! DEFINITION. in, get, out, put (44_io.md R190 to R197). The register index is checked before any request is made. -/

namespace Sys2Proof.Machine

/-- `in n` (44_io.md R191): a Malformed answer or an integer out of range raises IOError, and the input it consumed stays
consumed (60_exceptions.md R255). -/
def execIn (w : Word) (s : State) : Out := s.conclude do
  let w ← s.operand 1 w
  let n ← reg w
  let (answer, t) ← s.readInt
  match answer with
  | .malformed => pure (t.raise .ioError)
  | .int z => pure (if fitsWord z then (t.set n (wrap32 z)).advance 2 else t.raise .ioError)
  | .eof => pure ((t.setEndOfInput n).advance 2)

/-- `get n` (44_io.md R194): the byte is zero extended; there is no IOError (D29). -/
def execGet (w : Word) (s : State) : Out := s.conclude do
  let w ← s.operand 1 w
  let n ← reg w
  let (answer, t) ← s.readByte
  match answer with
  | .byte b => pure ((t.set n (zext8 b)).advance 2)
  | .eof => pure ((t.setEndOfInput n).advance 2)

/-- `out n` (44_io.md R196). -/
def execOut (w : Word) (s : State) : Out := s.conclude do
  let w ← s.operand 1 w
  let n ← reg w
  pure ((s.emit (decText (s.get n))).advance 2)

/-- `put n` (44_io.md R197): a value outside 0 to 255 raises IllegalOperand. -/
def execPut (w : Word) (s : State) : Out := s.conclude do
  let w ← s.operand 1 w
  let n ← reg w
  if (s.get n).toInt < 0 ∨ (s.get n).toInt > 255 then .error (.raised .illegalOperand)
  else pure ((s.emit [(s.get n).setWidth 8]).advance 2)

end Sys2Proof.Machine
end

