-- ==== Sys2Proof/Machine/JumpCompare.lean ====
section
/-! DEFINITION. The extension EXT_JMP: cmp, jmp, jz, jnz, jgt (46_ext_jump_compare.md R220 to R226). Each is recognised only
when EXT_JMP is true (30_encoding.md R96). -/

namespace Sys2Proof.Machine

/-- `cmp a, b` (46_ext_jump_compare.md R221): an operand 4 is the old result. -/
def execCmp (wa wb : Word) (s : State) : Out := s.conclude do
  s.recognise .extJmp
  let wa ← s.operand 1 wa
  let wb ← s.operand 2 wb
  let x ← regX wa
  let y ← regX wb
  pure ((s.setResult (aluSub (s.source x) (s.source y))).advance 3)

/-- `jmp target` (46_ext_jump_compare.md R223). -/
def execJmp (target : Word) (s : State) : Out := s.conclude do
  s.recognise .extJmp
  s.branch true target

/-- `jz target` (46_ext_jump_compare.md R224). -/
def execJz (target : Word) (s : State) : Out := s.conclude do
  s.recognise .extJmp
  s.branch s.condZero target

/-- `jnz target` (46_ext_jump_compare.md R225). -/
def execJnz (target : Word) (s : State) : Out := s.conclude do
  s.recognise .extJmp
  s.branch s.condNonZero target

/-- `jgt target` (46_ext_jump_compare.md R226). -/
def execJgt (target : Word) (s : State) : Out := s.conclude do
  s.recognise .extJmp
  s.branch s.condPositive target

end Sys2Proof.Machine
end

