-- ==== Sys2Proof/Machine/Moves.lean ====
section
/-! DEFINITION. mov and swap (42_register_moves.md R160 to R162); neither writes result. -/

namespace Sys2Proof.Machine

/-- `mov n, imm` (42_register_moves.md R161). -/
def execMov (w imm : Word) (s : State) : Out := s.conclude do
  let w ← s.operand 1 w
  let imm ← s.operand 2 imm
  let n ← reg w
  pure ((s.set n imm).advance 3)

/-- `swap a, b` (42_register_moves.md R162): both registers are read before either is written. -/
def execSwap (wa wb : Word) (s : State) : Out := s.conclude do
  let wa ← s.operand 1 wa
  let wb ← s.operand 2 wb
  let x ← reg wa
  let y ← reg wb
  pure (((s.set x (s.get y)).set y (s.get x)).advance 3)

end Sys2Proof.Machine
end

