-- ==== Sys2Proof/Machine/Stack.lean ====
section
/-! DEFINITION. load, store, push, pop (43_stack.md R170 to R176). -/

namespace Sys2Proof.Machine

/-- `load n, imm` (43_stack.md R171): D is used for the offset before the target is written. -/
def execLoad (w imm : Word) (s : State) : Out := s.conclude do
  let w ← s.operand 1 w
  let imm ← s.operand 2 imm
  let n ← reg w
  let a ← s.indexedAddress imm
  let v ← s.memRead a
  pure ((s.set n v).advance 3)

/-- `store n, imm` (43_stack.md R172). -/
def execStore (w imm : Word) (s : State) : Out := s.conclude do
  let w ← s.operand 1 w
  let imm ← s.operand 2 imm
  let n ← reg w
  let a ← s.indexedAddress imm
  let t ← s.memWrite a (s.get n)
  pure (t.advance 3)

/-- `push n` (43_stack.md R174). -/
def execPush (w : Word) (s : State) : Out := s.conclude do
  let w ← s.operand 1 w
  let n ← reg w
  let t ← s.pushWord (s.get n)
  pure (t.advance 2)

/-- `pop n` (43_stack.md R176). -/
def execPop (w : Word) (s : State) : Out := s.conclude do
  let w ← s.operand 1 w
  let n ← reg w
  let (v, t) ← s.popWord
  pure ((t.set n v).advance 2)

end Sys2Proof.Machine
end

