-- ==== Sys2Proof/Machine/Dispatch.lean ====
section
/-! DEFINITION. Dispatch of a decoded instruction to its one handler (40_cycle.md R122). -/

namespace Sys2Proof.Machine

/-- The handler of each instruction (40_cycle.md R122, R123). -/
def exec (i : Instr) (s : State) : Host.Outcome State Fault Refusal :=
  match i with
  | .nop => Sys2Proof.Machine.execNop s
  | .halt => Sys2Proof.Machine.execHalt s
  | .add n => Sys2Proof.Machine.execAdd n s
  | .sub n => Sys2Proof.Machine.execSub n s
  | .mul n => Sys2Proof.Machine.execMul n s
  | .div n => Sys2Proof.Machine.execDiv n s
  | .inc n => Sys2Proof.Machine.execInc n s
  | .dec n => Sys2Proof.Machine.execDec n s
  | .loop target => Sys2Proof.Machine.execLoop target s
  | .mov n imm => Sys2Proof.Machine.execMov n imm s
  | .load n imm => Sys2Proof.Machine.execLoad n imm s
  | .store n imm => Sys2Proof.Machine.execStore n imm s
  | .in_ n => Sys2Proof.Machine.execIn n s
  | .get n => Sys2Proof.Machine.execGet n s
  | .out n => Sys2Proof.Machine.execOut n s
  | .put n => Sys2Proof.Machine.execPut n s
  | .swap a b => Sys2Proof.Machine.execSwap a b s
  | .push n => Sys2Proof.Machine.execPush n s
  | .pop n => Sys2Proof.Machine.execPop n s
  | .cmp a b => Sys2Proof.Machine.execCmp a b s
  | .jmp target => Sys2Proof.Machine.execJmp target s
  | .jz target => Sys2Proof.Machine.execJz target s
  | .jnz target => Sys2Proof.Machine.execJnz target s
  | .jgt target => Sys2Proof.Machine.execJgt target s
  | .call target => Sys2Proof.Machine.execCall target s
  | .ret => Sys2Proof.Machine.execRet s

end Sys2Proof.Machine
end

