-- ==== Sys2Proof/Machine/Step.lean ====
section
/-! DEFINITION. One step of the fetch-decode-execute cycle (40_cycle.md R120 to R126), and the placing of an instruction
where the next step fetches it. -/

namespace Sys2Proof.Machine

/-- One step: nothing when status is not Running (40_cycle.md R120); else the opcode fetch (R121), recognition
(R122, R126) and the handler (R123). A destroyed core has no step (10_state.md R39). -/
def step (s : State) : Host.Outcome State Fault Refusal :=
  if s.live then
    if s.status = .running then
      match s.fetch 0 with
      | .error e => s.conclude (.error e)
      | .ok _ =>
        match decode s.shownWords with
        | .ok (i, _) => exec i s
        | .error _ => .next (s.raise .illegalInstruction)
    else .next s
  else .refused .destroyed

/-- The state with the three words of an instruction stored at pc, pc + 1 and pc + 2, where the next step fetches them:
it stands for the loading of a program from outside (70_reset_and_hazards.md R300; log 4). -/
def State.withFetchWord (s : State) (nbits w : Nat) : State :=
  { s with
    memory :=
      (((s.memory.write s.pc.toNat (BitVec.ofNat 32 (w % 2 ^ nbits))).write (s.pc.toNat + 1)
        (BitVec.ofNat 32 (w % 2 ^ nbits / 2 ^ 32))).write (s.pc.toNat + 2) (BitVec.ofNat 32 (w % 2 ^ nbits / 2 ^ 64))) }

end Sys2Proof.Machine
end

