-- ==== Sys2Proof/Machine/Lifecycle.lean ====
section
/-! DEFINITION. What the host does with a core between steps (70_reset_and_hazards.md R290 to R297): create, destroy, the
return value of a step, run(N), inspect. Reset stands in Machine/Ops.lean, beside fault entry. -/

namespace Sys2Proof.Machine

/-- The bounds create takes as premises (00_scope.md R6; 70_reset_and_hazards.md R291). -/
def createAllowed (memWords stackBottom capacity : Nat) : Bool :=
  decide (memWords % Config.blockWords = 0) && decide (Config.blockWords ≤ memWords) &&
    decide (memWords ≤ Config.maxMemWords) && decide (capacity ≤ stackBottom) && decide (stackBottom + 1 ≤ memWords)

/-- `create` (70_reset_and_hazards.md R290): a fresh register file over a region taken as it is; arguments outside the bounds
have no meaning (R291, U20). The region is given by its non-zero words; the devices are handed over as they stand. -/
def create (region : Memory) (memWords stackBottom capacity : Nat) (extJmp extCall : Bool)
    (input : InputSource) (output : List Byte) : Out :=
  if createAllowed memWords stackBottom capacity ∧ region.wf ∧ region.within memWords then
    .next {
      regA := 0
      regB := 0
      regC := 0
      regD := 0
      result := 0
      pc := 0
      sn := 0
      status := .running
      stackBottom := BitVec.ofNat 32 stackBottom
      capacity := BitVec.ofNat 32 capacity
      stackLimit := BitVec.ofNat 32 (stackBottom - capacity)
      memWords := memWords
      extJmp := extJmp
      extCall := extCall
      memory := region
      live := true
      input := input
      output := output }
  else .refused .createBounds

/-- `destroy` (70_reset_and_hazards.md R295): the core ceases to exist; its fields are unusable, the devices are not touched (D25). -/
def destroy (s : State) : Out := if s.live then .next { s with live := false } else .refused .destroyed

/-- What a step returns, read from the state it ends in (40_cycle.md R127, D17): 1 exactly when status is Running. -/
def stepReturn (t : State) : Int := if t.status = .running then 1 else 0

/-- The loop of run (40_cycle.md R128): at most `budget` steps while status is Running; the last state and the count, which
starts at `k`. -/
def runLoop : Nat → Nat → State → Host.Outcome (State × Nat) Fault Refusal
  | 0, k, s => .next (s, k)
  | budget + 1, k, s =>
    if s.status = .running then
      match step s with
      | .next t => runLoop budget (k + 1) t
      | .fault f => .fault f
      | .refused r => .refused r
    else .next (s, k)

/-- The signed count run returns (40_cycle.md R128): negated when status is a fault. -/
def runCount (t : State) (k : Nat) : Int := if t.status.isFault then -(k : Int) else k

/-- `run(N)` (40_cycle.md R128): 0 at once when status is not Running; N at or below 0 executes nothing (D17). The state it
ends in, and what it returns. -/
def run (n : Int) (s : State) : Host.Outcome (State × Int) Fault Refusal :=
  if s.live then
    if s.status = .running then
      match runLoop n.toNat 0 s with
      | .next (t, k) => .next (t, runCount t k)
      | .fault f => .fault f
      | .refused r => .refused r
    else .next (s, 0)
  else .refused .destroyed

/-- What the host may query (10_state.md R47). -/
inductive Query where
  | gpr (r : GReg)
  | result
  | sn
  | pc
  | status
deriving DecidableEq, Repr

/-- `inspect` (10_state.md R47): the signed value of a register, or the status code; result only under EXT_JMP (R28, D27). -/
def inspect (q : Query) (s : State) : Except Refusal Int :=
  if s.live then
    match q with
    | .gpr r => .ok (s.get r).toInt
    | .result => if s.extJmp then .ok s.result.toInt else .error .notInspectable
    | .sn => .ok s.sn.toInt
    | .pc => .ok s.pc.toInt
    | .status => .ok s.status.code
  else .error .destroyed

end Sys2Proof.Machine
end

