-- ==== Sys2Proof/Machine/Loader.lean ====
section
/-! DEFINITION. The loader's contract, as far as it fixes the image and the parameters the core boots with (00_scope.md R5;
70_reset_and_hazards.md R300 to R303; 20_memory.md R74). -/

namespace Sys2Proof.Machine

/-- Four stream bytes as one word, most significant first (20_memory.md R74). -/
def packWord (b0 b1 b2 b3 : Byte) : Word := b0 ++ b1 ++ b2 ++ b3

/-- The words of a byte stream in stream order; none when the stream ends inside a word (70_reset_and_hazards.md R301, R302). -/
def packWords : List Byte → Option (List Word)
  | [] => some []
  | b0 :: b1 :: b2 :: b3 :: rest => (packWords rest).map (packWord b0 b1 b2 b3 :: ·)
  | _ => none

/-- The words of a program placed from address `a` upward, in the canonical form of memory. -/
def placeWords : Nat → List Word → Memory
  | _, [] => []
  | a, w :: rest => if w = Memory.unlisted then placeWords (a + 1) rest else (a, w) :: placeWords (a + 1) rest

/-- The boot image: words 0 to P-1 the program, every other word 0 (70_reset_and_hazards.md R300). -/
def bootImage (program : List Word) : Memory := placeWords 0 program

/-- What the loader hands over (70_reset_and_hazards.md R296, R301). -/
structure Loaded where
  memory : Memory
  stackBottom : Nat
  capacity : Nat
deriving DecidableEq, Repr

/-- The loader (70_reset_and_hazards.md R301 to R303) for a region of `memWords` words, whose number of blocks the spec leaves a
parameter (D22): none when the stream ends inside a word, when program and capacity are both empty, or when a region of
that size does not hold program and stack. -/
def load (stream : List Byte) (capacity memWords : Nat) : Option Loaded :=
  match packWords stream with
  | none => none
  | some program =>
    if program = [] ∧ capacity = 0 then none
    else if memWords % Config.blockWords = 0 ∧ program.length + capacity ≤ memWords ∧ 0 < memWords then
      some { memory := bootImage program, stackBottom := memWords - 1, capacity := capacity }
    else none

end Sys2Proof.Machine
end

