-- ==== Sys2Proof/Safety.lean ====
section
/-! DEFINITION. The terms statements are made in: the configuration bounds, the invariant every step keeps, which operand
words can be fetched, and the fresh core. -/

namespace Sys2Proof.Machine

/-- The bounds on the parameters (00_scope.md R6; 70_reset_and_hazards.md R291) and what create computes (10_state.md R35). -/
structure State.ConfigOk (s : State) : Prop where
  blocks : s.memWords % Config.blockWords = 0
  atLeastOneBlock : Config.blockWords ≤ s.memWords
  atMost : s.memWords ≤ Config.maxMemWords
  capacityNonneg : 0 ≤ s.capacity.toInt
  capacityFits : s.capacity.toInt ≤ s.stackBottom.toInt
  bottomInside : s.stackBottom.toInt < s.memWords
  limit : s.stackLimit.toInt = s.stackBottom.toInt - s.capacity.toInt

/-- The invariant: the configuration bounds, the memory in canonical form inside the region, and 0 <= sn <= capacity
(10_state.md R33). -/
structure State.Inv (s : State) : Prop where
  config : s.ConfigOk
  memoryCanonical : s.memory.wf
  memoryInside : s.memory.within s.memWords
  snNonneg : 0 ≤ s.sn.toInt
  snBounded : s.sn.toInt ≤ s.capacity.toInt

/-- `Fetch(k)` passes its check (00_scope.md R10). -/
abbrev State.CanFetch (k : Nat) (s : State) : Prop :=
  0 ≤ s.pc.toInt + k ∧ s.pc.toInt + k < s.stackLimit.toInt

/-- A core as create leaves it (10_state.md R55), over a boot image that keeps clear of the stack zone: the premise
P <= stackLimit of 70_reset_and_hazards.md R304 (D31). -/
structure State.Fresh (s : State) : Prop where
  inv : s.Inv
  live : s.live = true
  running : s.status = .running
  regA : s.regA = 0
  regB : s.regB = 0
  regC : s.regC = 0
  regD : s.regD = 0
  result : s.result = 0
  pc : s.pc = 0
  sn : s.sn = 0
  stackZone : ∀ a : Nat, s.stackLimit.toInt ≤ a → (a : Int) ≤ s.stackBottom.toInt → s.memory.read a = 0

/-- Two states agree on everything create fixes and no step changes (10_state.md R35, 00_scope.md R18). -/
def State.SameConfig (s t : State) : Prop :=
  t.stackBottom = s.stackBottom ∧ t.capacity = s.capacity ∧ t.stackLimit = s.stackLimit ∧ t.memWords = s.memWords ∧
    t.extJmp = s.extJmp ∧ t.extCall = s.extCall ∧ t.live = s.live

end Sys2Proof.Machine
end

