-- ==== Sys2Proof/Certificates/Slice0/Obligations.lean ====
section
/-! DEFINITION. The statements for the provers. `Dn` are the spec's own decisions (spec/92_eei_decisions.md), `log n` is
notes/assumptions/n.md. Register operands are written by the indices of D3, and opcode numbers are D1, throughout. -/

open Sys2Proof Sys2Proof.Machine

/-! ### Encoding -/

/-- The decoder and the encoder agree in both directions, for every operand: a list of words is read as instruction `i`
exactly when it begins with the words of `i` (30_encoding.md R90, R91, R95; numbers D1, operand order D4). -/
def Obligations.DecodeAndEncodeAreInverse : Prop :=
  ∀ (ws : List Word) (i : Instr) (rest : List Word), decode ws = .ok (i, rest) ↔ ws = encode i ++ rest

/-- The opcode words outside the map are those negative or greater than 25, all 32 bits compared (30_encoding.md R92, R97;
D1, D5). -/
def Obligations.OpcodeWordsOutsideTheMapAreRefused : Prop :=
  ∀ (op : Word) (rest : List Word),
    decode (op :: rest) = .error (.unrecognisedOpcode op) ↔ op.toInt < 0 ∨ 25 < op.toInt

/-- A few encodings written out from 30_encoding.md R91, R95, R100 and 95_test_vectors.md. -/
def Obligations.WrittenOutWordsDecode : Prop :=
  decode [0x00000000] = .ok (.nop, []) ∧
  decode [0x00000002, 0x00000001] = .ok (.add 1, []) ∧
  decode [0x00000009, 0x00000000, 0x0000000A] = .ok (.mov 0 10, []) ∧
  decode [0x0000000B, 0x00000001, 0xFFFFFFFF] = .ok (.store 1 (-1), []) ∧
  decode [0x0000000C, 0x00000001] = .ok (.in_ 1, []) ∧
  decode [0x00000008, 0x00000006] = .ok (.loop 6, []) ∧
  decode [0x00000013, 0x00000004, 0x00000000] = .ok (.cmp 4 0, []) ∧
  decode [0x00000018, 0x00000008] = .ok (.call 8, []) ∧
  decode [0x00000100] = .error (.unrecognisedOpcode 256) ∧
  decode [0xFFFFFFFF] = .error (.unrecognisedOpcode (-1))

/-! ### The cycle -/

/-- When the words shown at pc decode to `i`, a step of a running core is `exec i`. What is shown is the memory word where
the fetch is allowed and 0 where it is not (log 12). -/
def Obligations.StepRunsTheDecodedInstruction : Prop :=
  ∀ (s : State) (i : Instr) (rest : List Word), s.ConfigOk → s.live = true → s.status = .running → s.CanFetch 0 →
    decode s.shownWords = .ok (i, rest) →
      step s = exec i s ∧
        ∀ k : Nat, s.shownWord k = if s.CanFetch k then s.memory.read (s.pc.toInt + k).toNat else 0

/-- When the memory words from pc on are those of `i`, as far as they may be fetched, a step of a running core is `exec i`:
an operand word that may not be fetched decides nothing (40_cycle.md R121 to R123; 30_encoding.md R99). -/
def Obligations.StepRunsTheInstructionInMemory : Prop :=
  ∀ (s : State) (i : Instr), s.ConfigOk → s.live = true → s.status = .running → s.CanFetch 0 →
    (∀ (k : Nat) (w : Word), (encode i)[k]? = some w → s.CanFetch k →
      s.memory.read (s.pc.toInt + k).toNat = w) →
      step s = exec i s

/-- 40_cycle.md R120: a step of a core that is not Running changes nothing and returns 0; a destroyed core has no step. -/
def Obligations.StepOfAStoppedCoreDoesNothing : Prop :=
  (∀ s : State, s.live = true → s.status ≠ .running → step s = .next s ∧ stepReturn s = 0) ∧
  (∀ s : State, s.live = false → step s = .refused .destroyed)

/-- 40_cycle.md R121: a pc outside 0 to stackLimit-1 raises InvalidAddress; with capacity = stackBottom every first fetch does.
That pc keeps its value is D12. -/
def Obligations.UnfetchablePcFaults : Prop :=
  (∀ s : State, s.live = true → s.status = .running → ¬s.CanFetch 0 →
    step s = .next { s with status := .faulted .invalidAddress }) ∧
  (∀ s : State, s.ConfigOk → s.live = true → s.status = .running → s.capacity = s.stackBottom →
    step s = .next { s with status := .faulted .invalidAddress })

/-- 30_encoding.md R96, R97 and 40_cycle.md R126: which opcode words are not recognised, and what a step does with one. The
numbers are D1, the gating D19, the kept pc D12. -/
def Obligations.UnrecognisedOpcodeFaults : Prop :=
  ∀ (s : State) (op : Word), s.ConfigOk → s.live = true → s.status = .running → s.CanFetch 0 →
    s.memory.read s.pc.toInt.toNat = op →
    (op.toInt < 0 ∨ 25 < op.toInt ∨ (19 ≤ op.toInt ∧ op.toInt ≤ 23 ∧ s.extJmp = false) ∨
      (24 ≤ op.toInt ∧ op.toInt ≤ 25 ∧ s.extCall = false)) →
      step s = .next { s with status := .faulted .illegalInstruction }

/-- 30_encoding.md R96 at the handler: an instruction of an extension that is off raises IllegalInstruction whatever its
operands and wherever they lie (D19, D12). -/
def Obligations.DisabledExtensionFaults : Prop :=
  ∀ (i : Instr) (s : State),
    (i.needs = .extJmp ∧ s.extJmp = false) ∨ (i.needs = .extCall ∧ s.extCall = false) →
      exec i s = .next { s with status := .faulted .illegalInstruction }

/-- 40_cycle.md R123 item 1, 60_exceptions.md R252: an operand word outside the fetch bound raises InvalidAddress before
anything else of the handler, for every instruction but the four that test a condition first (D9, D10, D12). -/
def Obligations.UnfetchableOperandFaultsFirst : Prop :=
  ∀ (i : Instr) (s : State) (k : Nat), s.ConfigOk →
    (i.needs = .extJmp → s.extJmp = true) → (i.needs = .extCall → s.extCall = true) →
    (∀ t : Word, i ≠ .loop t ∧ i ≠ .jz t ∧ i ≠ .jnz t ∧ i ≠ .jgt t) →
    1 ≤ k → k < i.lengthWords → ¬s.CanFetch k →
      exec i s = .next { s with status := .faulted .invalidAddress }

/-- 30_encoding.md R93, R98, 60_exceptions.md R252, R254: once the operand words are fetched, a register operand out of range
raises IllegalOperand before any stack, divisor, value or input check (D9, D12). -/
def Obligations.RegisterOperandOutOfRangeFaults : Prop :=
  ∀ (i : Instr) (s : State), s.ConfigOk →
    (i.needs = .extJmp → s.extJmp = true) → (i.needs = .extCall → s.extCall = true) →
    (∀ k : Nat, 1 ≤ k → k < i.lengthWords → s.CanFetch k) → i.wellFormed = false →
      exec i s = .next { s with status := .faulted .illegalOperand }

/-- 40_cycle.md R124: nop advances pc by one and nothing else, and its step returns 1; a zero word of the fetchable part is a
nop. -/
def Obligations.NopAdvancesByOne : Prop :=
  (∀ s : State, exec .nop s = .next { s with pc := s.pc + 1 }) ∧
  (∀ s : State, s.ConfigOk → s.live = true → s.status = .running → s.CanFetch 0 →
    s.memory.read s.pc.toInt.toNat = 0 →
      step s = .next { s with pc := s.pc + 1 } ∧ stepReturn { s with pc := s.pc + 1 } = 1)

/-- 40_cycle.md R125: halt sets status Halted and advances pc; the step returns 0, further steps do nothing, and run counts the
step (D17). -/
def Obligations.HaltStopsTheCore : Prop :=
  (∀ s : State, exec .halt s = .next { s with status := .halted, pc := s.pc + 1 } ∧
    stepReturn { s with status := .halted, pc := s.pc + 1 } = 0 ∧
    (s.live = true →
      step { s with status := .halted, pc := s.pc + 1 } = .next { s with status := .halted, pc := s.pc + 1 })) ∧
  (∀ (s : State) (n : Int), s.ConfigOk → s.live = true → s.status = .running → s.CanFetch 0 →
    s.memory.read s.pc.toInt.toNat = 1 → 1 ≤ n → run n s = .next ({ s with status := .halted, pc := s.pc + 1 }, 1))

/-! ### Arithmetic and moves -/

/-- 41_arithmetic.md R141, R142, R143, R147: the new A is the exact integer result modulo 2^32, mirrored into result under
EXT_JMP; nothing else changes but pc (D3, D6, D20). -/
def Obligations.AddSubMulWrapTheExactResult : Prop :=
  ∀ (s : State) (n : GReg), s.ConfigOk → s.CanFetch 1 →
    (exec (.add n.index) s = .next { s with
      regA := BitVec.ofInt 32 (s.regA.toInt + (s.get n).toInt)
      result := if s.extJmp then BitVec.ofInt 32 (s.regA.toInt + (s.get n).toInt) else s.result
      pc := s.pc + 2 }) ∧
    (exec (.sub n.index) s = .next { s with
      regA := BitVec.ofInt 32 (s.regA.toInt - (s.get n).toInt)
      result := if s.extJmp then BitVec.ofInt 32 (s.regA.toInt - (s.get n).toInt) else s.result
      pc := s.pc + 2 }) ∧
    (exec (.mul n.index) s = .next { s with
      regA := BitVec.ofInt 32 (s.regA.toInt * (s.get n).toInt)
      result := if s.extJmp then BitVec.ofInt 32 (s.regA.toInt * (s.get n).toInt) else s.result
      pc := s.pc + 2 })

/-- 41_arithmetic.md R144: divisor 0 raises DivByZero and leaves A; any other divisor gives the quotient rounded toward zero
(`Int.tdiv`) modulo 2^32, -2^31 / -1 included, mirrored into result (D3, D7, D8, D20). -/
def Obligations.DivTruncatesTowardZero : Prop :=
  ∀ (s : State) (n : GReg), s.ConfigOk → s.CanFetch 1 →
    ((s.get n).toInt = 0 → exec (.div n.index) s = .next { s with status := .faulted .divByZero }) ∧
    ((s.get n).toInt ≠ 0 → exec (.div n.index) s = .next { s with
      regA := BitVec.ofInt 32 (s.regA.toInt.tdiv (s.get n).toInt)
      result := if s.extJmp then BitVec.ofInt 32 (s.regA.toInt.tdiv (s.get n).toInt) else s.result
      pc := s.pc + 2 })

/-- 41_arithmetic.md R145, R146, R147: inc and dec change the named register by one modulo 2^32 and mirror the new value for every
register (D3, D6, D20). -/
def Obligations.IncDecWriteAndMirror : Prop :=
  ∀ (s : State) (n : GReg), s.ConfigOk → s.CanFetch 1 →
    (exec (.inc n.index) s = .next { s.set n (BitVec.ofInt 32 ((s.get n).toInt + 1)) with
      result := if s.extJmp then BitVec.ofInt 32 ((s.get n).toInt + 1) else s.result
      pc := s.pc + 2 }) ∧
    (exec (.dec n.index) s = .next { s.set n (BitVec.ofInt 32 ((s.get n).toInt - 1)) with
      result := if s.extJmp then BitVec.ofInt 32 ((s.get n).toInt - 1) else s.result
      pc := s.pc + 2 })

/-- 42_register_moves.md R160, R161: mov writes the immediate as stored, and not result (D3). -/
def Obligations.MovStoresTheImmediate : Prop :=
  ∀ (s : State) (n : GReg) (imm : Word), s.ConfigOk → s.CanFetch 1 → s.CanFetch 2 →
    exec (.mov n.index imm) s = .next { s.set n imm with pc := s.pc + 3 }

/-- 42_register_moves.md R160, R162: swap exchanges the two registers; every other register, result and memory stay (D3, D4). -/
def Obligations.SwapExchangesTwoRegisters : Prop :=
  ∀ (s : State) (x y : GReg), s.ConfigOk → s.CanFetch 1 → s.CanFetch 2 →
    ∃ t : State, exec (.swap x.index y.index) s = .next t ∧
      t.get x = s.get y ∧ t.get y = s.get x ∧ (∀ r : GReg, r ≠ x → r ≠ y → t.get r = s.get r) ∧
      t = { s with regA := t.regA, regB := t.regB, regC := t.regC, regD := t.regD, pc := s.pc + 3 }

/-! ### Stack -/

/-- 43_stack.md R171, R173: the exact sum imm + D names a live slot, or InvalidStackOperation is raised (D3, D4, D11, D12). -/
def Obligations.LoadReadsTheIndexedSlot : Prop :=
  ∀ (s : State) (n : GReg) (imm : Word), s.Inv → s.CanFetch 1 → s.CanFetch 2 →
    (0 ≤ imm.toInt + s.regD.toInt ∧ imm.toInt + s.regD.toInt < s.sn.toInt →
      exec (.load n.index imm) s = .next { s.set n
        (s.memory.read (s.stackBottom.toInt - (s.sn.toInt - (imm.toInt + s.regD.toInt) - 1)).toNat) with
        pc := s.pc + 3 }) ∧
    (¬(0 ≤ imm.toInt + s.regD.toInt ∧ imm.toInt + s.regD.toInt < s.sn.toInt) →
      exec (.load n.index imm) s = .next { s with status := .faulted .invalidStackOperation })

/-- 43_stack.md R172, R173: store overwrites one live slot and no other word; no register and not sn (D3, D4, D11, D12). -/
def Obligations.StoreWritesTheIndexedSlot : Prop :=
  ∀ (s : State) (n : GReg) (imm : Word), s.Inv → s.CanFetch 1 → s.CanFetch 2 →
    (0 ≤ imm.toInt + s.regD.toInt ∧ imm.toInt + s.regD.toInt < s.sn.toInt →
      ∃ t : State, exec (.store n.index imm) s = .next t ∧
        t = { s with memory := t.memory, pc := s.pc + 3 } ∧
        ∀ a : Nat, t.memory.read a =
          if (a : Int) = s.stackBottom.toInt - (s.sn.toInt - (imm.toInt + s.regD.toInt) - 1) then s.get n
          else s.memory.read a) ∧
    (¬(0 ≤ imm.toInt + s.regD.toInt ∧ imm.toInt + s.regD.toInt < s.sn.toInt) →
      exec (.store n.index imm) s = .next { s with status := .faulted .invalidStackOperation })

/-- 43_stack.md R174: push writes the next free slot and no other word and adds 1 to sn; a full stack raises
InvalidStackOperation (D3, D12). -/
def Obligations.PushWritesTheNextFreeSlot : Prop :=
  ∀ (s : State) (n : GReg), s.Inv → s.CanFetch 1 →
    (s.sn.toInt < s.capacity.toInt →
      ∃ t : State, exec (.push n.index) s = .next t ∧
        t = { s with memory := t.memory, sn := t.sn, pc := s.pc + 2 } ∧ t.sn.toInt = s.sn.toInt + 1 ∧
        ∀ a : Nat, t.memory.read a =
          if (a : Int) = s.stackBottom.toInt - s.sn.toInt then s.get n else s.memory.read a) ∧
    (s.capacity.toInt ≤ s.sn.toInt →
      exec (.push n.index) s = .next { s with status := .faulted .invalidStackOperation })

/-- 43_stack.md R176: pop reads the top slot into the register and takes 1 from sn; memory is not written (D21); an empty stack
raises InvalidStackOperation (D3, D12). -/
def Obligations.PopReadsTheTopSlot : Prop :=
  ∀ (s : State) (n : GReg), s.Inv → s.CanFetch 1 →
    (0 < s.sn.toInt →
      ∃ t : State, exec (.pop n.index) s = .next t ∧
        t = { s.set n (s.memory.read (s.stackBottom.toInt - s.sn.toInt + 1).toNat) with sn := t.sn, pc := s.pc + 2 } ∧
        t.sn.toInt = s.sn.toInt - 1) ∧
    (s.sn.toInt ≤ 0 →
      exec (.pop n.index) s = .next { s with status := .faulted .invalidStackOperation })

/-- 43_stack.md R175: push x, then pop y wherever it stands, copies x[x] to x[y] and leaves sn and the other registers; with
x = y every register keeps its value (D3). -/
def Obligations.PushThenPopCopiesARegister : Prop :=
  ∀ (s : State) (x y : GReg), s.Inv → s.CanFetch 1 → s.sn.toInt < s.capacity.toInt →
    ∃ t : State, exec (.push x.index) s = .next t ∧
      ∀ p : Word, ({ t with pc := p } : State).CanFetch 1 →
        ∃ u : State, exec (.pop y.index) { t with pc := p } = .next u ∧
          u.get y = s.get x ∧ (∀ r : GReg, r ≠ y → u.get r = s.get r) ∧ u.sn = s.sn ∧ u.result = s.result ∧
          (x = y → ∀ r : GReg, u.get r = s.get r)

/-! ### Input and output -/

/-- 44_io.md R191: the five things `in` can meet: an integer that fits, one that does not, Malformed, end of input, no answer
(D3, D12, D14, D24; log 8). -/
def Obligations.InFollowsTheSource : Prop :=
  ∀ (s : State) (n : GReg), s.ConfigOk → s.CanFetch 1 →
    (∀ (z : Int) (src : InputSource), s.input.readInt = some (.int z, src) → -2 ^ 31 ≤ z ∧ z ≤ 2 ^ 31 - 1 →
      exec (.in_ n.index) s = .next { s.set n (BitVec.ofInt 32 z) with input := src, pc := s.pc + 2 }) ∧
    (∀ (z : Int) (src : InputSource), s.input.readInt = some (.int z, src) → ¬(-2 ^ 31 ≤ z ∧ z ≤ 2 ^ 31 - 1) →
      exec (.in_ n.index) s = .next { s with input := src, status := .faulted .ioError }) ∧
    (∀ src : InputSource, s.input.readInt = some (.malformed, src) →
      exec (.in_ n.index) s = .next { s with input := src, status := .faulted .ioError }) ∧
    (∀ src : InputSource, s.input.readInt = some (.eof, src) →
      exec (.in_ n.index) s = .next { (s.set .c 0).set n (-1) with input := src, pc := s.pc + 2 }) ∧
    (s.input.readInt = none → exec (.in_ n.index) s = .fault .inputUnanswered)

/-- 44_io.md R194: the byte zero extended, end of input, or no answer; never IOError (D3, D14, D24, D29; log 8). -/
def Obligations.GetFollowsTheSource : Prop :=
  ∀ (s : State) (n : GReg), s.ConfigOk → s.CanFetch 1 →
    (∀ (b : Byte) (src : InputSource), s.input.readByte = some (.byte b, src) →
      exec (.get n.index) s = .next { s.set n (BitVec.ofNat 32 b.toNat) with input := src, pc := s.pc + 2 }) ∧
    (∀ src : InputSource, s.input.readByte = some (.eof, src) →
      exec (.get n.index) s = .next { (s.set .c 0).set n (-1) with input := src, pc := s.pc + 2 }) ∧
    (s.input.readByte = none → exec (.get n.index) s = .fault .inputUnanswered)

/-- 44_io.md R196: out appends the decimal text of the register to the output and changes nothing else but pc (D3, D16). -/
def Obligations.OutEmitsTheDecimalText : Prop :=
  ∀ (s : State) (n : GReg), s.ConfigOk → s.CanFetch 1 →
    exec (.out n.index) s = .next { s with output := s.output ++ decText (s.get n), pc := s.pc + 2 }

/-- 10_state.md R52: the text is a minus sign exactly for a negative value, then the decimal digits of its magnitude, with no
leading zero but for 0 itself (D16). -/
def Obligations.DecimalTextHasItsShape : Prop :=
  ∀ v : Word, ∃ ds : List Byte,
    decText v = (if v.toInt < 0 then [0x2D#8] else []) ++ ds ∧
    ds ≠ [] ∧ (∀ d ∈ ds, 0x30 ≤ d.toNat ∧ d.toNat ≤ 0x39) ∧ (ds.head? = some 0x30#8 → ds = [0x30#8]) ∧
    ds.foldl (fun acc d => 10 * acc + (d.toNat - 48)) 0 = v.toInt.natAbs

/-- 44_io.md R197: a value from 0 to 255 is appended as one byte; any other raises IllegalOperand and emits nothing (D3, D12). -/
def Obligations.PutEmitsOneByte : Prop :=
  ∀ (s : State) (n : GReg), s.ConfigOk → s.CanFetch 1 →
    (0 ≤ (s.get n).toInt ∧ (s.get n).toInt ≤ 255 →
      exec (.put n.index) s = .next { s with output := s.output ++ [BitVec.ofNat 8 (s.get n).toNat], pc := s.pc + 2 }) ∧
    (¬(0 ≤ (s.get n).toInt ∧ (s.get n).toInt ≤ 255) →
      exec (.put n.index) s = .next { s with status := .faulted .illegalOperand })

/-- 44_io.md R192, the reference device of D15, as `in` meets it through the source's ReadInt: white space, one optional sign, the
longest run of digits; the byte after them stays; an empty run is Malformed; white space alone is the end. -/
def Obligations.ReferenceDeviceReadsIntegers : Prop :=
  (∀ sp : List Byte, (∀ b ∈ sp, b.toNat = 0x20 ∨ (0x09 ≤ b.toNat ∧ b.toNat ≤ 0x0D)) →
    (InputSource.stream sp).readInt = some (.eof, .stream [])) ∧
  (∀ (sp sign ds rest : List Byte), (∀ b ∈ sp, b.toNat = 0x20 ∨ (0x09 ≤ b.toNat ∧ b.toNat ≤ 0x0D)) →
    (sign = [] ∨ sign = [0x2B#8] ∨ sign = [0x2D#8]) → (∀ d ∈ ds, 0x30 ≤ d.toNat ∧ d.toNat ≤ 0x39) →
    (∀ b ∈ rest.head?, ¬(0x30 ≤ b.toNat ∧ b.toNat ≤ 0x39)) →
      (ds ≠ [] → (InputSource.stream (sp ++ sign ++ ds ++ rest)).readInt =
        some (.int ((if sign = [0x2D#8] then -1 else 1) *
          ((ds.foldl (fun acc d => 10 * acc + (d.toNat - 48)) 0 : Nat) : Int)), .stream rest)) ∧
      (ds = [] → sign ≠ [] → ∃ left, (InputSource.stream (sp ++ sign ++ ds ++ rest)).readInt =
        some (.malformed, .stream left))) ∧
  (∀ (sp rest : List Byte) (b : Byte), (∀ b ∈ sp, b.toNat = 0x20 ∨ (0x09 ≤ b.toNat ∧ b.toNat ≤ 0x0D)) →
    ¬(b.toNat = 0x20 ∨ (0x09 ≤ b.toNat ∧ b.toNat ≤ 0x0D)) → b ≠ 0x2B#8 → b ≠ 0x2D#8 →
    ¬(0x30 ≤ b.toNat ∧ b.toNat ≤ 0x39) →
      ∃ left, (InputSource.stream (sp ++ b :: rest)).readInt = some (.malformed, .stream left))

/-- 10_state.md R48 to R51, 44_io.md R191: a byte stream answers every request, ReadInt leaving an end of the stream, ReadByte taking
the next byte or answering Eof; a script answers in its order and then never again (the model's forms of a source, log 5); an Eof,
of any source to either request, is repeated to every later request (D15; for a script it is log 6). -/
def Obligations.InputSourceAnswersAndEnds : Prop :=
  (∀ unread : List Byte, ∃ answer left,
    (InputSource.stream unread).readInt = some (answer, .stream left) ∧ left <:+ unread) ∧
  (∀ (b : Byte) (rest : List Byte), (InputSource.stream (b :: rest)).readByte = some (.byte b, .stream rest)) ∧
  (InputSource.stream []).readByte = some (.eof, .stream []) ∧
  (∀ (answer : IntAnswer) (ints : List IntAnswer) (bytes : List ByteAnswer), answer ≠ .eof →
    (InputSource.script (answer :: ints) bytes).readInt = some (answer, .script ints bytes)) ∧
  (∀ (b : Byte) (ints : List IntAnswer) (bytes : List ByteAnswer),
    (InputSource.script ints (.byte b :: bytes)).readByte = some (.byte b, .script ints bytes)) ∧
  (∀ (ints : List IntAnswer) (bytes : List ByteAnswer),
    (InputSource.script [] bytes).readInt = none ∧ (InputSource.script ints []).readByte = none ∧
    (∃ src, (InputSource.script (.eof :: ints) bytes).readInt = some (.eof, src)) ∧
    (∃ src, (InputSource.script ints (.eof :: bytes)).readByte = some (.eof, src))) ∧
  (∀ src left : InputSource, src.readInt = some (.eof, left) ∨ src.readByte = some (.eof, left) →
    left.readInt = some (.eof, left) ∧ left.readByte = some (.eof, left))

/-! ### Transfers of control -/

/-- 45_control_flow.md R210, R211: loop jumps exactly when C is not 0, changes no register, and fetches its operand only then
(D3, D12). -/
def Obligations.LoopJumpsWhileCIsNotZero : Prop :=
  ∀ (s : State) (target : Word), s.ConfigOk →
    (s.regC = 0 → exec (.loop target) s = .next { s with pc := s.pc + 2 }) ∧
    (s.regC ≠ 0 → s.CanFetch 1 → exec (.loop target) s = .next { s with pc := target }) ∧
    (s.regC ≠ 0 → ¬s.CanFetch 1 → exec (.loop target) s = .next { s with status := .faulted .invalidAddress })

/-- 46_ext_jump_compare.md R221: cmp writes the wrapped difference to result, an operand 4 being the old result, and no general
register (D3, D6). -/
def Obligations.CmpWritesTheDifference : Prop :=
  ∀ (s : State) (x y : Source), s.ConfigOk → s.extJmp = true → s.CanFetch 1 → s.CanFetch 2 →
    exec (.cmp x.index y.index) s = .next { s with
      result := BitVec.ofInt 32
        ((match x with | .gpr r => s.get r | .result => s.result).toInt -
          (match y with | .gpr r => s.get r | .result => s.result).toInt)
      pc := s.pc + 3 }

/-- 46_ext_jump_compare.md R222 to R226: jmp always, jz, jnz and jgt exactly on their condition on the signed result, go to the
target word as stored, or raise InvalidAddress when the operand word may not be fetched; not taken advances by 2 whether or not
it may be fetched (D12, D13). -/
def Obligations.JumpsFollowTheirConditions : Prop :=
  ∀ (s : State) (target : Word), s.ConfigOk → s.extJmp = true →
    (s.CanFetch 1 →
      exec (.jmp target) s = .next { s with pc := target } ∧
      (s.result.toInt = 0 → exec (.jz target) s = .next { s with pc := target }) ∧
      (s.result.toInt ≠ 0 → exec (.jnz target) s = .next { s with pc := target }) ∧
      (0 < s.result.toInt → exec (.jgt target) s = .next { s with pc := target })) ∧
    (¬s.CanFetch 1 →
      exec (.jmp target) s = .next { s with status := .faulted .invalidAddress } ∧
      (s.result.toInt = 0 → exec (.jz target) s = .next { s with status := .faulted .invalidAddress }) ∧
      (s.result.toInt ≠ 0 → exec (.jnz target) s = .next { s with status := .faulted .invalidAddress }) ∧
      (0 < s.result.toInt → exec (.jgt target) s = .next { s with status := .faulted .invalidAddress })) ∧
    (s.result.toInt ≠ 0 → exec (.jz target) s = .next { s with pc := s.pc + 2 }) ∧
    (s.result.toInt = 0 → exec (.jnz target) s = .next { s with pc := s.pc + 2 }) ∧
    (s.result.toInt ≤ 0 → exec (.jgt target) s = .next { s with pc := s.pc + 2 })

/-- 47_ext_call_return.md R241: call writes pc + 2 to the next free slot and to no other word, adds 1 to sn and goes to its target;
a full stack raises InvalidStackOperation (D10, D12). -/
def Obligations.CallPushesTheReturnAddress : Prop :=
  ∀ (s : State) (target : Word), s.Inv → s.extCall = true → s.CanFetch 1 →
    (s.sn.toInt < s.capacity.toInt →
      ∃ t : State, exec (.call target) s = .next t ∧
        t = { s with memory := t.memory, sn := t.sn, pc := target } ∧ t.sn.toInt = s.sn.toInt + 1 ∧
        ∀ a : Nat, t.memory.read a =
          if (a : Int) = s.stackBottom.toInt - s.sn.toInt then s.pc + 2 else s.memory.read a) ∧
    (s.capacity.toInt ≤ s.sn.toInt →
      exec (.call target) s = .next { s with status := .faulted .invalidStackOperation })

/-- 47_ext_call_return.md R242: ret takes the top word to pc whatever it is and takes 1 from sn; memory is not written (D21); an
empty stack raises InvalidStackOperation (D12, D13). -/
def Obligations.RetPopsThePc : Prop :=
  ∀ s : State, s.Inv → s.extCall = true →
    (0 < s.sn.toInt →
      ∃ t : State, exec .ret s = .next t ∧ t.sn.toInt = s.sn.toInt - 1 ∧
        t = { s with sn := t.sn, pc := s.memory.read (s.stackBottom.toInt - s.sn.toInt + 1).toNat }) ∧
    (s.sn.toInt ≤ 0 → exec .ret s = .next { s with status := .faulted .invalidStackOperation })

/-- 47_ext_call_return.md R240 to R242: a ret, wherever it stands, run on the stack a call leaves goes to the instruction after the
call and restores sn. -/
def Obligations.CallThenRetReturns : Prop :=
  ∀ (s : State) (target : Word), s.Inv → s.extCall = true → s.CanFetch 1 → s.sn.toInt < s.capacity.toInt →
    ∃ t : State, exec (.call target) s = .next t ∧ t.pc = target ∧
      ∀ p : Word, exec .ret { t with pc := p } = .next { t with pc := s.pc + 2, sn := s.sn }

/-! ### What each instruction leaves alone -/

/-- 10_state.md R26: where pc stands after each instruction that completes, and that a fault leaves it (D12, D13). -/
def Obligations.PcAfterEachInstruction : Prop :=
  ∀ (i : Instr) (s t : State), s.status = .running → exec i s = .next t →
    ((∃ c, t.status = .faulted c) → t.pc = s.pc) ∧
    ((∀ c, t.status ≠ .faulted c) → t.pc = match i with
      | .nop | .halt => s.pc + 1
      | .mov _ _ | .load _ _ | .store _ _ | .swap _ _ | .cmp _ _ => s.pc + 3
      | .loop target => if s.regC.toInt ≠ 0 then target else s.pc + 2
      | .jmp target => target
      | .jz target => if s.result.toInt = 0 then target else s.pc + 2
      | .jnz target => if s.result.toInt ≠ 0 then target else s.pc + 2
      | .jgt target => if 0 < s.result.toInt then target else s.pc + 2
      | .call target => target
      | .ret => s.memory.read (s.stackBottom.toInt - s.sn.toInt + 1).toNat
      | .add _ | .sub _ | .mul _ | .div _ | .inc _ | .dec _ | .in_ _ | .get _ | .out _ | .put _ | .push _ | .pop _ =>
        s.pc + 2)

/-- 10_state.md R23, the column "writes": an instruction changes no general register outside its row (D3). -/
def Obligations.GeneralRegisterWriters : Prop :=
  ∀ (i : Instr) (s t : State) (r : GReg), exec i s = .next t → t.get r ≠ s.get r →
    match i with
    | .add _ | .sub _ | .mul _ | .div _ => r = .a
    | .inc n | .dec n | .mov n _ | .load n _ | .pop n => n = r.index
    | .in_ n | .get n => n = r.index ∨ r = .c
    | .swap x y => x = r.index ∨ y = r.index
    | .nop | .halt | .loop _ | .store _ _ | .out _ | .put _ | .push _ | .cmp _ _ | .jmp _ | .jz _ | .jnz _ | .jgt _
    | .call _ | .ret => False

/-- 10_state.md R29: result changes only under EXT_JMP and only by cmp and the six arithmetic instructions, which leave in it the
register they wrote (D3, D20). -/
def Obligations.ResultWriters : Prop :=
  ∀ (i : Instr) (s t : State), exec i s = .next t → t.result ≠ s.result →
    s.extJmp = true ∧
    match i with
    | .add _ | .sub _ | .mul _ | .div _ => t.result = t.regA
    | .inc n | .dec n => ∃ r : GReg, n = r.index ∧ t.result = t.get r
    | .cmp _ _ => True
    | .nop | .halt | .loop _ | .mov _ _ | .load _ _ | .store _ _ | .in_ _ | .get _ | .out _ | .put _ | .swap _ _ | .push _
    | .pop _ | .jmp _ | .jz _ | .jnz _ | .jgt _ | .call _ | .ret => False

/-- 20_memory.md R83, the writes: only push, call and store change a word of memory, and only at the address their row gives (D3). -/
def Obligations.MemoryWriters : Prop :=
  ∀ (i : Instr) (s t : State) (a : Nat), exec i s = .next t → t.memory.read a ≠ s.memory.read a →
    match i with
    | .push _ | .call _ => (a : Int) = s.stackBottom.toInt - s.sn.toInt
    | .store _ imm => (a : Int) = s.stackBottom.toInt - (s.sn.toInt - (imm.toInt + s.regD.toInt) - 1)
    | .nop | .halt | .add _ | .sub _ | .mul _ | .div _ | .inc _ | .dec _ | .loop _ | .mov _ _ | .load _ _ | .in_ _ | .get _
    | .out _ | .put _ | .swap _ _ | .pop _ | .cmp _ _ | .jmp _ | .jz _ | .jnz _ | .jgt _ | .ret => False

/-- 10_state.md R33: push and call add 1 to sn, pop and ret take 1 from it, nothing else moves it. -/
def Obligations.StackSizeWriters : Prop :=
  ∀ (i : Instr) (s t : State), exec i s = .next t → t.sn ≠ s.sn →
    match i with
    | .push _ | .call _ => s.sn.toInt < s.capacity.toInt ∧ t.sn = s.sn + 1
    | .pop _ | .ret => 0 < s.sn.toInt ∧ t.sn = s.sn - 1
    | .nop | .halt | .add _ | .sub _ | .mul _ | .div _ | .inc _ | .dec _ | .loop _ | .mov _ _ | .load _ _ | .store _ _
    | .in_ _ | .get _ | .out _ | .put _ | .swap _ _ | .cmp _ _ | .jmp _ | .jz _ | .jnz _ | .jgt _ => False

/-- 20_memory.md R61, 60_exceptions.md R271: only in and get touch the input source; only out and put emit, and output is only ever
appended to. -/
def Obligations.DeviceUsers : Prop :=
  ∀ (i : Instr) (s t : State), exec i s = .next t →
    (t.input ≠ s.input → ∃ n, i = .in_ n ∨ i = .get n) ∧
    (t.output ≠ s.output → ∃ n, i = .out n ∨ i = .put n) ∧
    (∃ bytes, t.output = s.output ++ bytes)

/-- 10_state.md R32: create and reset write Running, a step of a running core may write Halted (halt) or a fault, a step of any other
core writes nothing; so a terminal status is left by reset alone; no instruction reads status. -/
def Obligations.StatusTransitions : Prop :=
  (∀ s t : State, step s = .next t → s.status ≠ .running → t = s) ∧
  (∀ s t : State, step s = .next t → s.status = .running →
    t.status = .running ∨ (t.status = .halted ∧ ∃ rest, decode s.shownWords = .ok (.halt, rest)) ∨
      ∃ c, t.status = .faulted c) ∧
  (∀ (i : Instr) (s t : State), exec i s = .next t →
    t.status = s.status ∨ (i = .halt ∧ t.status = .halted) ∨ ∃ c, t.status = .faulted c) ∧
  (∀ (i : Instr) (s t : State) (x : Status), exec i s = .next t →
    ∃ u : State, exec i { s with status := x } = .next u ∧ { u with status := t.status } = t) ∧
  (∀ s t : State, resetCore s = .next t → t.status = .running) ∧
  (∀ s t : State, destroy s = .next t → t.status = s.status) ∧
  (∀ (region : Memory) (memWords stackBottom capacity : Nat) (extJmp extCall : Bool) (input : InputSource)
    (output : List Byte) (s : State),
    create region memWords stackBottom capacity extJmp extCall input output = .next s → s.status = .running)

/-! ### Whole-machine rules -/

/-- 60_exceptions.md R255, R256: a step that faults writes status and nothing else and returns 0 (D12, D17); the one outside effect it
may have is the input consumed by an `in` that ends in IOError, which no other instruction raises (R251). That this input stays
consumed is log 17. -/
def Obligations.FaultingStepWritesOnlyStatus : Prop :=
  ∀ (s t : State) (c : Cause), s.status = .running → step s = .next t → t.status = .faulted c →
    t = { s with status := .faulted c, input := t.input } ∧ stepReturn t = 0 ∧
    (c ≠ .ioError → t.input = s.input) ∧
    (c = .ioError → ∃ n rest answer,
      decode s.shownWords = .ok (.in_ n, rest) ∧ s.input.readInt = some (answer, t.input))

/-- 20_memory.md R71: every address the stack address calculator gives lies in the slots. -/
def Obligations.StackAccessesStayInTheSlots : Prop :=
  ∀ s : State, s.Inv →
    (∀ a : Int, s.pushAddress = .ok a →
      a = s.stackBottom.toInt - s.sn.toInt ∧ s.stackLimit.toInt + 1 ≤ a ∧ a ≤ s.stackBottom.toInt) ∧
    (∀ a : Int, s.popAddress = .ok a ∨ (∃ imm, s.indexedAddress imm = .ok a) →
      s.stackLimit.toInt + 1 ≤ s.stackBottom.toInt - s.sn.toInt + 1 ∧ s.stackBottom.toInt - s.sn.toInt + 1 ≤ a ∧
        a ≤ s.stackBottom.toInt)

/-- 20_memory.md R65, R73, R81: no step changes a word that can be fetched, the guard word, or a word above stackBottom; in
particular no program changes itself. -/
def Obligations.StepLeavesCodeAndGuardWordAlone : Prop :=
  ∀ (s t : State) (a : Nat), s.Inv → step s = .next t →
    ((a : Int) ≤ s.stackLimit.toInt ∨ s.stackBottom.toInt < a) → t.memory.read a = s.memory.read a

/-- 10_state.md R35, 00_scope.md R18: no step and no reset changes what create fixes. -/
def Obligations.StepAndResetKeepTheConfiguration : Prop :=
  ∀ s t : State, step s = .next t ∨ resetCore s = .next t → s.SameConfig t

/-- The invariant is kept by every step: configuration bounds, canonical memory inside the region, 0 <= sn <= capacity
(00_scope.md R6, 10_state.md R33; the canonical form is the model's, log 1). -/
def Obligations.StepKeepsTheInvariant : Prop :=
  ∀ s t : State, s.Inv → step s = .next t → t.Inv

/-- The host's reset and destroy keep the invariant, and every core create makes meets it (70_reset_and_hazards.md R290 to R295). -/
def Obligations.HostOperationsKeepTheInvariant : Prop :=
  (∀ s t : State, s.Inv → resetCore s = .next t ∨ destroy s = .next t → t.Inv) ∧
  (∀ (region : Memory) (memWords stackBottom capacity : Nat) (extJmp extCall : Bool) (input : InputSource)
    (output : List Byte) (s : State),
    create region memWords stackBottom capacity extJmp extCall input output = .next s → s.Inv)

/-- The reset state meets the invariant and is a fresh core (10_state.md R55; its parameters are the model's choice, log 2). -/
def Obligations.ResetStateMeetsTheInvariant : Prop :=
  State.reset.Inv ∧ State.reset.Fresh

/-- 20_memory.md R71, 00_scope.md R9: in a state that meets the invariant a step always answers a next state, but where `in` or
`get` waits for an answer that never comes (10_state.md R51; log 8). In particular no access leaves the region. -/
def Obligations.StepAnswersUnlessInputIsUnanswered : Prop :=
  ∀ s : State, s.Inv → s.live = true →
    (∃ t, step s = .next t) ∨
    (step s = .fault .inputUnanswered ∧
      ((∃ n rest, decode s.shownWords = .ok (.in_ n, rest) ∧ s.input.readInt = none) ∨
        (∃ n rest, decode s.shownWords = .ok (.get n, rest) ∧ s.input.readByte = none)))

/-! ### The host's operations and the loader -/

/-- 70_reset_and_hazards.md R290: what create leaves in every field, for arguments inside the bounds (the premises of 00_scope.md R6,
D18). That the region is given by its non-zero words is the model's form of it (log 1), and so is the dead field result holding 0
when EXT_JMP is false (log 15). -/
def Obligations.CreateLeavesTheResetValues : Prop :=
  ∀ (region : Memory) (memWords stackBottom capacity : Nat) (extJmp extCall : Bool) (input : InputSource)
    (output : List Byte), region.wf → region.within memWords →
    memWords % 1024 = 0 → 1024 ≤ memWords → memWords ≤ 2 ^ 31 - 1024 → capacity ≤ stackBottom → stackBottom ≤ memWords - 1 →
      ∃ s : State, create region memWords stackBottom capacity extJmp extCall input output = .next s ∧
        s.stackBottom.toInt = stackBottom ∧ s.capacity.toInt = capacity ∧
        s.stackLimit.toInt = (stackBottom : Int) - capacity ∧
        s = { regA := 0, regB := 0, regC := 0, regD := 0, result := 0, pc := 0, sn := 0, status := .running,
              stackBottom := s.stackBottom, capacity := s.capacity, stackLimit := s.stackLimit, memWords := memWords,
              extJmp := extJmp, extCall := extCall, memory := region, live := true, input := input, output := output }

/-- 70_reset_and_hazards.md R291: a create outside the bounds has no meaning, the spec's own decision D18 (U20); the refusal is the
model's (log 10). -/
def Obligations.CreateOutsideTheBoundsIsRefused : Prop :=
  ∀ (region : Memory) (memWords stackBottom capacity : Nat) (extJmp extCall : Bool) (input : InputSource)
    (output : List Byte),
    ¬(memWords % 1024 = 0 ∧ 1024 ≤ memWords ∧ memWords ≤ 2 ^ 31 - 1024 ∧ capacity ≤ stackBottom ∧ stackBottom ≤ memWords - 1) →
      create region memWords stackBottom capacity extJmp extCall input output = .refused .createBounds

/-- 70_reset_and_hazards.md R292, R293: reset zeroes the words from stackLimit to stackBottom and writes every register, pc, sn and
status, in any status, and leaves the rest of memory, the configuration and the devices (D25); the dead result stays (log 15). -/
def Obligations.ResetClearsTheStackZone : Prop :=
  ∀ s : State, s.live = true →
    ∃ t : State, resetCore s = .next t ∧
      (∀ a : Nat, t.memory.read a =
        if s.stackLimit.toInt ≤ a ∧ (a : Int) ≤ s.stackBottom.toInt then 0 else s.memory.read a) ∧
      t = { s with regA := 0, regB := 0, regC := 0, regD := 0, result := if s.extJmp then 0 else s.result, sn := 0,
                   pc := 0, status := .running, memory := t.memory }

/-- 70_reset_and_hazards.md R294: after any number of steps of a fresh core, reset gives back exactly the state create left, but for
the devices (R293), given P <= stackLimit (R304, D31). -/
def Obligations.ResetAfterAnyRunEqualsCreate : Prop :=
  ∀ (c t : State) (k : Nat), c.Fresh → Host.Core.run core k c = .next t →
    resetCore t = .next { c with input := t.input, output := t.output }

/-- 40_cycle.md R128: run on a stopped core or with a budget of 0 or less executes nothing and returns 0; otherwise it is one step
and the rest of the run, one more counted, negated when it ends in a fault (D17). -/
def Obligations.RunIsAStepAndTheRest : Prop :=
  ∀ (s : State) (n : Int), s.live = true →
    (s.status ≠ .running ∨ n ≤ 0 → run n s = .next (s, 0)) ∧
    (∀ (t u : State) (r : Int), s.status = .running → 0 < n → step s = .next t → run (n - 1) t = .next (u, r) →
      run n s = .next (u, if u.status.isFault then r - 1 else r + 1))

/-- 40_cycle.md R129: what the host learns from the sign of run's return value (D17). -/
def Obligations.RunReportsHowItEnded : Prop :=
  ∀ (s u : State) (n r : Int), run n s = .next (u, r) →
    (r = 0 ↔ s.status ≠ .running ∨ n ≤ 0) ∧ (r = 0 → u = s) ∧
    (r < 0 ↔ s.status = .running ∧ 0 < n ∧ ∃ c, u.status = .faulted c) ∧
    (0 < r → u.status = .halted ∨ (u.status = .running ∧ r = n)) ∧ (r.natAbs : Int) ≤ max n 0

/-- 10_state.md R47 and R28: the host may query every register, sn, pc and the status code of a live core, result only under
EXT_JMP; after destroy nothing (D26, D27). The codes 1 to 7 are D2. -/
def Obligations.InspectionReportsTheRegisters : Prop :=
  ∀ s : State,
    (s.live = true →
      (∀ r : GReg, inspect (.gpr r) s = .ok (s.get r).toInt) ∧ inspect .sn s = .ok s.sn.toInt ∧
      inspect .pc s = .ok s.pc.toInt ∧
      inspect .status s = .ok (match s.status with
        | .running => 0
        | .halted => 1
        | .faulted .illegalInstruction => 2
        | .faulted .illegalOperand => 3
        | .faulted .invalidAddress => 4
        | .faulted .invalidStackOperation => 5
        | .faulted .divByZero => 6
        | .faulted .ioError => 7) ∧
      (s.extJmp = true → inspect .result s = .ok s.result.toInt) ∧
      (s.extJmp = false → inspect .result s = .error .notInspectable) ∧
      ∃ t : State, destroy s = .next t ∧ step t = .refused .destroyed ∧ resetCore t = .refused .destroyed ∧
        destroy t = .refused .destroyed ∧ ∀ (q : Query) (n : Int), inspect q t = .error .destroyed ∧ run n t = .refused .destroyed)

/-- 20_memory.md R74, 70_reset_and_hazards.md R301, R302: four stream bytes make one word, most significant first, in stream order;
a stream whose length is no multiple of 4 is refused. -/
def Obligations.LoaderPacksBigEndian : Prop :=
  ∀ stream : List Byte,
    (packWords stream = none ↔ stream.length % 4 ≠ 0) ∧
    ∀ ws : List Word, packWords stream = some ws → stream.length = 4 * ws.length ∧
      ∀ (j : Nat) (w : Word) (b0 b1 b2 b3 : Byte), ws[j]? = some w → stream[4 * j]? = some b0 →
        stream[4 * j + 1]? = some b1 → stream[4 * j + 2]? = some b2 → stream[4 * j + 3]? = some b3 →
          w.toNat = b0.toNat * 2 ^ 24 + b1.toNat * 2 ^ 16 + b2.toNat * 2 ^ 8 + b3.toNat

/-- 70_reset_and_hazards.md R300 to R303: the loader answers exactly when the stream is whole words, program and capacity are not
both empty, and a positive multiple of 1024 words holds the program and the stack (MEM_WORDS is a parameter, D22; an allocation
failure is left out, log 18); a core created from its answer holds the program from address 0, zero everywhere else, and its stack
bottom at the last word. -/
def Obligations.LoadedCoreHoldsTheProgram : Prop :=
  (∀ (stream : List Byte) (capacity memWords : Nat), (∃ loaded, load stream capacity memWords = some loaded) ↔
    stream.length % 4 = 0 ∧ ¬(stream = [] ∧ capacity = 0) ∧ memWords % 1024 = 0 ∧ 0 < memWords ∧
      stream.length / 4 + capacity ≤ memWords) ∧
  (∀ memWords : Nat, load [] 0 memWords = none) ∧
  (∀ (stream : List Byte) (ws : List Word) (capacity memWords : Nat) (loaded : Loaded) (extJmp extCall : Bool)
    (input : InputSource) (output : List Byte), packWords stream = some ws → load stream capacity memWords = some loaded →
    memWords ≤ 2 ^ 31 - 1024 → capacity < memWords →
      ∃ s : State,
        create loaded.memory memWords loaded.stackBottom loaded.capacity extJmp extCall input output = .next s ∧
        s.pc = 0 ∧ s.status = .running ∧ s.stackBottom.toInt = (memWords : Int) - 1 ∧ s.capacity.toInt = capacity ∧
        ∀ j : Nat, s.memory.read j = ws[j]?.getD 0)
end

