-- ==== Sys2Proof/Laws/Memory.lean ====
section
/-! SUPPORT. What memory reads after a write or a range clear, that both keep the canonical form, and that canonical
memories with the same words are the same list. -/

namespace Sys2Proof.Machine

variable (m : Memory) (a x : Nat) (v : Word)

@[simp] theorem Memory.read_nil : Memory.read [] a = Memory.unlisted := rfl

theorem Memory.read_cons (p : Nat × Word) :
    Memory.read (p :: m) a = if a = p.1 then p.2 else Memory.read m a := rfl

/-- Keeping only the entries whose address satisfies `keep` reads 0 elsewhere. -/
theorem Memory.read_filter (keep : Nat → Bool) :
    Memory.read (m.filter fun p => keep p.1) x = if keep x then Memory.read m x else Memory.unlisted := by
  induction m with
  | nil => simp
  | cons p rest ih =>
    by_cases hp : keep p.1 <;> by_cases hx : x = p.1 <;> simp_all [Memory.read_cons]

theorem Memory.read_insert_same : Memory.read (Memory.insert m a v) a = v := by
  induction m with
  | nil => simp [Memory.insert, Memory.read_cons]
  | cons p rest ih => grind [Memory.insert, Memory.read_cons]

theorem Memory.read_insert_other (h : x ≠ a) : Memory.read (Memory.insert m a v) x = Memory.read m x := by
  induction m with
  | nil => simp [Memory.insert, Memory.read_cons, h]
  | cons p rest ih => grind [Memory.insert, Memory.read_cons]

/-- A read after a write to the same address. -/
@[simp] theorem Memory.read_write_same : Memory.read (Memory.write m a v) a = v := by
  unfold Memory.write
  split
  · rename_i h
    have := Memory.read_filter m a (fun b => decide (b ≠ a))
    simp_all [Memory.erase]
  · exact Memory.read_insert_same m a v

/-- A write leaves every other address alone. -/
theorem Memory.read_write_other (h : x ≠ a) : Memory.read (Memory.write m a v) x = Memory.read m x := by
  unfold Memory.write
  split
  · have := Memory.read_filter m x (fun b => decide (b ≠ a))
    simp_all [Memory.erase]
  · exact Memory.read_insert_other m a x v h

/-- Clearing a range: 0 inside, unchanged outside. -/
theorem Memory.read_zeroRange (lo hi : Int) :
    Memory.read (m.zeroRange lo hi) x = if lo ≤ (x : Int) ∧ (x : Int) ≤ hi then 0 else Memory.read m x := by
  have := Memory.read_filter m x (fun b => decide ¬(lo ≤ (b : Int) ∧ (b : Int) ≤ hi))
  unfold Memory.zeroRange
  by_cases h : lo ≤ (x : Int) ∧ (x : Int) ≤ hi <;> simp_all [Memory.unlisted]

theorem Memory.mem_insert {p : Nat × Word} (h : p ∈ Memory.insert m a v) : p = (a, v) ∨ p ∈ m := by
  induction m with
  | nil => simpa [Memory.insert] using h
  | cons q rest ih => grind [Memory.insert]

theorem Memory.wf_filter {keep : Nat × Word → Bool} (h : m.wf) : Memory.wf (m.filter keep) :=
  ⟨h.1.filter _, fun p hp => h.2 p (List.mem_of_mem_filter hp)⟩

theorem Memory.wf_insert (h : m.wf) (hv : v ≠ Memory.unlisted) : Memory.wf (Memory.insert m a v) := by
  refine ⟨?_, fun p hp => ?_⟩
  · obtain ⟨h1, -⟩ := h
    induction m with
    | nil => simp [Memory.insert]
    | cons q rest ih =>
      obtain ⟨hq, hrest⟩ := List.pairwise_cons.mp h1
      unfold Memory.insert
      split
      · rename_i hlt
        refine List.pairwise_cons.mpr ⟨fun p hp => ?_, h1⟩
        rcases List.mem_cons.mp hp with rfl | hp
        · exact hlt
        · exact Nat.lt_trans hlt (hq p hp)
      · split
        · rename_i _ heq
          exact List.pairwise_cons.mpr ⟨fun p hp => heq ▸ hq p hp, hrest⟩
        · refine List.pairwise_cons.mpr ⟨fun p hp => ?_, ih hrest⟩
          rcases Memory.mem_insert rest a v hp with rfl | hp
          · show q.1 < a
            omega
          · exact hq p hp
  · rcases Memory.mem_insert m a v hp with rfl | hp
    · exact hv
    · exact h.2 p hp

/-- A write keeps the canonical form. -/
theorem Memory.wf_write (h : m.wf) : Memory.wf (Memory.write m a v) := by
  unfold Memory.write
  split
  · exact Memory.wf_filter m h
  · exact Memory.wf_insert m a v h ‹_›

/-- Clearing a range keeps the canonical form. -/
theorem Memory.wf_zeroRange (lo hi : Int) (h : m.wf) : Memory.wf (m.zeroRange lo hi) := Memory.wf_filter m h

/-- A write inside the region keeps the memory inside it. -/
theorem Memory.within_write {n : Nat} (h : m.within n) (ha : a < n) : Memory.within (Memory.write m a v) n := by
  intro p hp
  unfold Memory.write at hp
  split at hp
  · exact h p (List.mem_of_mem_filter hp)
  · rcases Memory.mem_insert m a v hp with rfl | hp
    · exact ha
    · exact h p hp

/-- Clearing a range keeps the memory inside its region. -/
theorem Memory.within_zeroRange {n : Nat} (lo hi : Int) (h : m.within n) : Memory.within (m.zeroRange lo hi) n :=
  fun p hp => h p (List.mem_of_mem_filter hp)

/-- An address below every listed one is not listed. -/
theorem Memory.read_below (h : ∀ p ∈ m, a < p.1) : Memory.read m a = Memory.unlisted := by
  induction m with
  | nil => rfl
  | cons p rest ih =>
    have h1 := h p (by simp)
    rw [Memory.read_cons, if_neg (by omega)]
    exact ih fun q hq => h q (by simp [hq])

/-- Canonical memories that hold the same words are equal data. -/
theorem Memory.ext_of_read {m m' : Memory} (h : m.wf) (h' : m'.wf) (hr : ∀ a, m.read a = m'.read a) : m = m' := by
  induction m generalizing m' with
  | nil =>
    cases m' with
    | nil => rfl
    | cons p rest => exact absurd (by simpa [Memory.read_cons] using hr p.1) (Ne.symm (h'.2 p (by simp)))
  | cons p rest ih =>
    cases m' with
    | nil => exact absurd (by simpa [Memory.read_cons] using hr p.1) (h.2 p (by simp))
    | cons q rest' =>
      obtain ⟨hp, hrest⟩ := List.pairwise_cons.mp h.1
      obtain ⟨hq, hrest'⟩ := List.pairwise_cons.mp h'.1
      have below {n : Nat} {z : Nat × Word} {l : Memory} (hz : ∀ y ∈ l, z.1 < y.1) (hn : n < z.1) :
          Memory.read (z :: l) n = Memory.unlisted :=
        Memory.read_below _ _ (by
          intro y hy
          rcases List.mem_cons.mp hy with rfl | hy
          · exact hn
          · exact Nat.lt_trans hn (hz y hy))
      have hpq : p.1 = q.1 := by
        rcases Nat.lt_trichotomy p.1 q.1 with hlt | heq | hgt
        · have := hr p.1
          rw [below hq hlt, Memory.read_cons, if_pos rfl] at this
          exact absurd this (h.2 p (by simp))
        · exact heq
        · have := hr q.1
          rw [below hp hgt, Memory.read_cons, if_pos rfl] at this
          exact absurd this.symm (h'.2 q (by simp))
      have hv : p.2 = q.2 := by
        have := hr p.1
        rwa [Memory.read_cons, if_pos rfl, Memory.read_cons, if_pos hpq] at this
      have htail : rest = rest' := by
        refine ih ⟨hrest, fun y hy => h.2 y (by simp [hy])⟩ ⟨hrest', fun y hy => h'.2 y (by simp [hy])⟩ fun a => ?_
        by_cases ha : a = p.1
        · subst ha
          rw [Memory.read_below _ _ hp, Memory.read_below _ _ (hpq ▸ hq)]
        · have := hr a
          rwa [Memory.read_cons, if_neg ha, Memory.read_cons, if_neg (hpq ▸ ha)] at this
      rw [htail, Prod.ext hpq hv]

end Sys2Proof.Machine
end

