-- ==== Sys2Proof/Laws/State.lean ====
section
/-! SUPPORT. One lemma per field per update of State, so that no later proof unfolds a record update. -/

namespace Sys2Proof.Machine

variable (s : State) (r : GReg) (v : Word) (k : Nat) (c : Cause) (bs : List Byte)

/-! ### `set` -/

@[simp] theorem State.set_result : (s.set r v).result = s.result := by cases r <;> rfl
@[simp] theorem State.set_pc : (s.set r v).pc = s.pc := by cases r <;> rfl
@[simp] theorem State.set_sn : (s.set r v).sn = s.sn := by cases r <;> rfl
@[simp] theorem State.set_status : (s.set r v).status = s.status := by cases r <;> rfl
@[simp] theorem State.set_stackBottom : (s.set r v).stackBottom = s.stackBottom := by cases r <;> rfl
@[simp] theorem State.set_capacity : (s.set r v).capacity = s.capacity := by cases r <;> rfl
@[simp] theorem State.set_stackLimit : (s.set r v).stackLimit = s.stackLimit := by cases r <;> rfl
@[simp] theorem State.set_memWords : (s.set r v).memWords = s.memWords := by cases r <;> rfl
@[simp] theorem State.set_extJmp : (s.set r v).extJmp = s.extJmp := by cases r <;> rfl
@[simp] theorem State.set_extCall : (s.set r v).extCall = s.extCall := by cases r <;> rfl
@[simp] theorem State.set_memory : (s.set r v).memory = s.memory := by cases r <;> rfl
@[simp] theorem State.set_live : (s.set r v).live = s.live := by cases r <;> rfl
@[simp] theorem State.set_input : (s.set r v).input = s.input := by cases r <;> rfl
@[simp] theorem State.set_output : (s.set r v).output = s.output := by cases r <;> rfl

@[simp] theorem State.get_set_same : (s.set r v).get r = v := by cases r <;> rfl

theorem State.get_set_other {r q : GReg} (h : q ≠ r) : (s.set r v).get q = s.get q := by
  cases r <;> cases q <;> first | rfl | exact absurd rfl h

@[simp] theorem State.get_a : s.get .a = s.regA := rfl
@[simp] theorem State.get_b : s.get .b = s.regB := rfl
@[simp] theorem State.get_c : s.get .c = s.regC := rfl
@[simp] theorem State.get_d : s.get .d = s.regD := rfl

/-! ### `setResult` and `setMirrored` -/

@[simp] theorem State.setResult_regA : (s.setResult v).regA = s.regA := rfl
@[simp] theorem State.setResult_regB : (s.setResult v).regB = s.regB := rfl
@[simp] theorem State.setResult_regC : (s.setResult v).regC = s.regC := rfl
@[simp] theorem State.setResult_regD : (s.setResult v).regD = s.regD := rfl
@[simp] theorem State.setResult_pc : (s.setResult v).pc = s.pc := rfl
@[simp] theorem State.setResult_sn : (s.setResult v).sn = s.sn := rfl
@[simp] theorem State.setResult_status : (s.setResult v).status = s.status := rfl
@[simp] theorem State.setResult_stackBottom : (s.setResult v).stackBottom = s.stackBottom := rfl
@[simp] theorem State.setResult_capacity : (s.setResult v).capacity = s.capacity := rfl
@[simp] theorem State.setResult_stackLimit : (s.setResult v).stackLimit = s.stackLimit := rfl
@[simp] theorem State.setResult_memWords : (s.setResult v).memWords = s.memWords := rfl
@[simp] theorem State.setResult_extJmp : (s.setResult v).extJmp = s.extJmp := rfl
@[simp] theorem State.setResult_extCall : (s.setResult v).extCall = s.extCall := rfl
@[simp] theorem State.setResult_memory : (s.setResult v).memory = s.memory := rfl
@[simp] theorem State.setResult_live : (s.setResult v).live = s.live := rfl
@[simp] theorem State.setResult_input : (s.setResult v).input = s.input := rfl
@[simp] theorem State.setResult_output : (s.setResult v).output = s.output := rfl
@[simp] theorem State.setResult_result : (s.setResult v).result = if s.extJmp then v else s.result := rfl
@[simp] theorem State.setResult_get : (s.setResult v).get r = s.get r := by cases r <;> simp [State.get]
@[simp] theorem State.setMirrored_pc : (s.setMirrored r v).pc = s.pc := by simp [State.setMirrored]
@[simp] theorem State.setMirrored_sn : (s.setMirrored r v).sn = s.sn := by simp [State.setMirrored]
@[simp] theorem State.setMirrored_status : (s.setMirrored r v).status = s.status := by simp [State.setMirrored]
@[simp] theorem State.setMirrored_stackBottom : (s.setMirrored r v).stackBottom = s.stackBottom := by simp [State.setMirrored]
@[simp] theorem State.setMirrored_capacity : (s.setMirrored r v).capacity = s.capacity := by simp [State.setMirrored]
@[simp] theorem State.setMirrored_stackLimit : (s.setMirrored r v).stackLimit = s.stackLimit := by simp [State.setMirrored]
@[simp] theorem State.setMirrored_memWords : (s.setMirrored r v).memWords = s.memWords := by simp [State.setMirrored]
@[simp] theorem State.setMirrored_extJmp : (s.setMirrored r v).extJmp = s.extJmp := by simp [State.setMirrored]
@[simp] theorem State.setMirrored_extCall : (s.setMirrored r v).extCall = s.extCall := by simp [State.setMirrored]
@[simp] theorem State.setMirrored_memory : (s.setMirrored r v).memory = s.memory := by simp [State.setMirrored]
@[simp] theorem State.setMirrored_live : (s.setMirrored r v).live = s.live := by simp [State.setMirrored]
@[simp] theorem State.setMirrored_input : (s.setMirrored r v).input = s.input := by simp [State.setMirrored]
@[simp] theorem State.setMirrored_output : (s.setMirrored r v).output = s.output := by simp [State.setMirrored]
@[simp] theorem State.setMirrored_result : (s.setMirrored r v).result = if s.extJmp then v else s.result := by simp [State.setMirrored]
@[simp] theorem State.setMirrored_get_same : (s.setMirrored r v).get r = v := by simp [State.setMirrored]

theorem State.setMirrored_get_other {r q : GReg} (h : q ≠ r) : (s.setMirrored r v).get q = s.get q := by
  simp [State.setMirrored, State.get_set_other _ _ h]

/-! ### `advance` -/

@[simp] theorem State.advance_regA : (s.advance k).regA = s.regA := rfl
@[simp] theorem State.advance_regB : (s.advance k).regB = s.regB := rfl
@[simp] theorem State.advance_regC : (s.advance k).regC = s.regC := rfl
@[simp] theorem State.advance_regD : (s.advance k).regD = s.regD := rfl
@[simp] theorem State.advance_result : (s.advance k).result = s.result := rfl
@[simp] theorem State.advance_pc : (s.advance k).pc = s.pc + BitVec.ofNat 32 k := rfl
@[simp] theorem State.advance_sn : (s.advance k).sn = s.sn := rfl
@[simp] theorem State.advance_status : (s.advance k).status = s.status := rfl
@[simp] theorem State.advance_stackBottom : (s.advance k).stackBottom = s.stackBottom := rfl
@[simp] theorem State.advance_capacity : (s.advance k).capacity = s.capacity := rfl
@[simp] theorem State.advance_stackLimit : (s.advance k).stackLimit = s.stackLimit := rfl
@[simp] theorem State.advance_memWords : (s.advance k).memWords = s.memWords := rfl
@[simp] theorem State.advance_extJmp : (s.advance k).extJmp = s.extJmp := rfl
@[simp] theorem State.advance_extCall : (s.advance k).extCall = s.extCall := rfl
@[simp] theorem State.advance_memory : (s.advance k).memory = s.memory := rfl
@[simp] theorem State.advance_live : (s.advance k).live = s.live := rfl
@[simp] theorem State.advance_input : (s.advance k).input = s.input := rfl
@[simp] theorem State.advance_output : (s.advance k).output = s.output := rfl
@[simp] theorem State.advance_get : (s.advance k).get r = s.get r := by cases r <;> rfl

/-! ### `jumpTo` -/

@[simp] theorem State.jumpTo_regA : (s.jumpTo v).regA = s.regA := rfl
@[simp] theorem State.jumpTo_regB : (s.jumpTo v).regB = s.regB := rfl
@[simp] theorem State.jumpTo_regC : (s.jumpTo v).regC = s.regC := rfl
@[simp] theorem State.jumpTo_regD : (s.jumpTo v).regD = s.regD := rfl
@[simp] theorem State.jumpTo_result : (s.jumpTo v).result = s.result := rfl
@[simp] theorem State.jumpTo_pc : (s.jumpTo v).pc = v := rfl
@[simp] theorem State.jumpTo_sn : (s.jumpTo v).sn = s.sn := rfl
@[simp] theorem State.jumpTo_status : (s.jumpTo v).status = s.status := rfl
@[simp] theorem State.jumpTo_stackBottom : (s.jumpTo v).stackBottom = s.stackBottom := rfl
@[simp] theorem State.jumpTo_capacity : (s.jumpTo v).capacity = s.capacity := rfl
@[simp] theorem State.jumpTo_stackLimit : (s.jumpTo v).stackLimit = s.stackLimit := rfl
@[simp] theorem State.jumpTo_memWords : (s.jumpTo v).memWords = s.memWords := rfl
@[simp] theorem State.jumpTo_extJmp : (s.jumpTo v).extJmp = s.extJmp := rfl
@[simp] theorem State.jumpTo_extCall : (s.jumpTo v).extCall = s.extCall := rfl
@[simp] theorem State.jumpTo_memory : (s.jumpTo v).memory = s.memory := rfl
@[simp] theorem State.jumpTo_live : (s.jumpTo v).live = s.live := rfl
@[simp] theorem State.jumpTo_input : (s.jumpTo v).input = s.input := rfl
@[simp] theorem State.jumpTo_output : (s.jumpTo v).output = s.output := rfl
@[simp] theorem State.jumpTo_get : (s.jumpTo v).get r = s.get r := by cases r <;> rfl

/-! ### `raise` -/

@[simp] theorem State.raise_regA : (s.raise c).regA = s.regA := rfl
@[simp] theorem State.raise_regB : (s.raise c).regB = s.regB := rfl
@[simp] theorem State.raise_regC : (s.raise c).regC = s.regC := rfl
@[simp] theorem State.raise_regD : (s.raise c).regD = s.regD := rfl
@[simp] theorem State.raise_result : (s.raise c).result = s.result := rfl
@[simp] theorem State.raise_pc : (s.raise c).pc = s.pc := rfl
@[simp] theorem State.raise_sn : (s.raise c).sn = s.sn := rfl
@[simp] theorem State.raise_status : (s.raise c).status = .faulted c := rfl
@[simp] theorem State.raise_stackBottom : (s.raise c).stackBottom = s.stackBottom := rfl
@[simp] theorem State.raise_capacity : (s.raise c).capacity = s.capacity := rfl
@[simp] theorem State.raise_stackLimit : (s.raise c).stackLimit = s.stackLimit := rfl
@[simp] theorem State.raise_memWords : (s.raise c).memWords = s.memWords := rfl
@[simp] theorem State.raise_extJmp : (s.raise c).extJmp = s.extJmp := rfl
@[simp] theorem State.raise_extCall : (s.raise c).extCall = s.extCall := rfl
@[simp] theorem State.raise_memory : (s.raise c).memory = s.memory := rfl
@[simp] theorem State.raise_live : (s.raise c).live = s.live := rfl
@[simp] theorem State.raise_input : (s.raise c).input = s.input := rfl
@[simp] theorem State.raise_output : (s.raise c).output = s.output := rfl
@[simp] theorem State.raise_get : (s.raise c).get r = s.get r := by cases r <;> rfl

/-! ### `emit` -/

@[simp] theorem State.emit_regA : (s.emit bs).regA = s.regA := rfl
@[simp] theorem State.emit_regB : (s.emit bs).regB = s.regB := rfl
@[simp] theorem State.emit_regC : (s.emit bs).regC = s.regC := rfl
@[simp] theorem State.emit_regD : (s.emit bs).regD = s.regD := rfl
@[simp] theorem State.emit_result : (s.emit bs).result = s.result := rfl
@[simp] theorem State.emit_pc : (s.emit bs).pc = s.pc := rfl
@[simp] theorem State.emit_sn : (s.emit bs).sn = s.sn := rfl
@[simp] theorem State.emit_status : (s.emit bs).status = s.status := rfl
@[simp] theorem State.emit_stackBottom : (s.emit bs).stackBottom = s.stackBottom := rfl
@[simp] theorem State.emit_capacity : (s.emit bs).capacity = s.capacity := rfl
@[simp] theorem State.emit_stackLimit : (s.emit bs).stackLimit = s.stackLimit := rfl
@[simp] theorem State.emit_memWords : (s.emit bs).memWords = s.memWords := rfl
@[simp] theorem State.emit_extJmp : (s.emit bs).extJmp = s.extJmp := rfl
@[simp] theorem State.emit_extCall : (s.emit bs).extCall = s.extCall := rfl
@[simp] theorem State.emit_memory : (s.emit bs).memory = s.memory := rfl
@[simp] theorem State.emit_live : (s.emit bs).live = s.live := rfl
@[simp] theorem State.emit_input : (s.emit bs).input = s.input := rfl
@[simp] theorem State.emit_output : (s.emit bs).output = s.output ++ bs := rfl
@[simp] theorem State.emit_get : (s.emit bs).get r = s.get r := by cases r <;> rfl

end Sys2Proof.Machine
end

