-- ==== Sys2Proof/Laws/Ops.lean ====
section
/-! SUPPORT. For each shared operation one lemma that says once everything it can do; later proofs cite these and do not
unfold the operation. -/

namespace Sys2Proof.Machine

/-! ### Sequencing of checks -/

theorem Check.bind_ok {α β : Type} {x : Check α} {f : α → Check β} {b : β} :
    (x >>= f) = .ok b ↔ ∃ a, x = .ok a ∧ f a = .ok b := by
  cases x <;> simp [bind, Except.bind]

theorem Check.bind_error {α β : Type} {x : Check α} {f : α → Check β} {e : Stop} :
    (x >>= f) = .error e ↔ x = .error e ∨ ∃ a, x = .ok a ∧ f a = .error e := by
  cases x <;> simp [bind, Except.bind]

@[simp] theorem Check.ok_bind {α β : Type} (a : α) (f : α → Check β) : ((.ok a : Check α) >>= f) = f a := rfl

@[simp] theorem Check.error_bind {α β : Type} (e : Stop) (f : α → Check β) :
    ((.error e : Check α) >>= f) = .error e := rfl

@[simp] theorem Check.pure_eq {α : Type} (a : α) : (pure a : Check α) = .ok a := rfl

@[simp] theorem State.conclude_ok (s t : State) : s.conclude (.ok t) = .next t := rfl
@[simp] theorem State.conclude_raised (s : State) (c : Cause) : s.conclude (.error (.raised c)) = .next (s.raise c) := rfl
@[simp] theorem State.conclude_stuck (s : State) (f : Fault) : s.conclude (.error (.stuck f)) = .fault f := rfl

/-- A handler that answers a next state either completed or raised a fault in the state it began with. -/
theorem State.conclude_next {s t : State} {r : Check State} :
    s.conclude r = .next t ↔ r = .ok t ∨ ∃ c, r = .error (.raised c) ∧ t = s.raise c := by
  unfold State.conclude
  split <;> simp_all [eq_comm]

/-- A handler never refuses. -/
theorem State.conclude_ne_refused {s : State} {r : Check State} {x : Refusal} : s.conclude r ≠ .refused x := by
  unfold State.conclude
  split <;> simp

/-! ### Memory accesses and fetch -/

theorem State.memRead_ok {s : State} {a : Int} {w : Word} :
    s.memRead a = .ok w ↔ (0 ≤ a ∧ a < s.memWords) ∧ w = s.memory.read a.toNat := by
  unfold State.memRead
  split <;> simp_all [eq_comm]

theorem State.memRead_error {s : State} {a : Int} {e : Stop} :
    s.memRead a = .error e ↔ ¬(0 ≤ a ∧ a < s.memWords) ∧ e = .stuck .outsideRegion := by
  unfold State.memRead
  split <;> simp_all [eq_comm]

theorem State.memWrite_ok {s t : State} {a : Int} {v : Word} :
    s.memWrite a v = .ok t ↔ (0 ≤ a ∧ a < s.memWords) ∧ t = { s with memory := s.memory.write a.toNat v } := by
  unfold State.memWrite
  split <;> simp_all [eq_comm]

theorem State.memWrite_error {s : State} {a : Int} {v : Word} {e : Stop} :
    s.memWrite a v = .error e ↔ ¬(0 ≤ a ∧ a < s.memWords) ∧ e = .stuck .outsideRegion := by
  unfold State.memWrite
  split <;> simp_all [eq_comm]

theorem State.fetch_ok {s : State} {k : Nat} {w : Word} :
    s.fetch k = .ok w ↔
      s.CanFetch k ∧ s.pc.toInt + k < s.memWords ∧ w = s.memory.read (s.pc.toInt + k).toNat := by
  unfold State.fetch State.CanFetch
  split
  · rw [State.memRead_ok]
    constructor <;> rintro ⟨h1, h2⟩ <;> simp_all
  · simp_all

theorem State.fetch_error {s : State} {k : Nat} {e : Stop} :
    s.fetch k = .error e ↔
      (¬s.CanFetch k ∧ e = .raised .invalidAddress) ∨
        (s.CanFetch k ∧ ¬ s.pc.toInt + k < s.memWords ∧ e = .stuck .outsideRegion) := by
  unfold State.fetch State.CanFetch
  split
  · rw [State.memRead_error]
    simp_all
  · simp_all [eq_comm]

/-- Inside the configuration bounds a fetch that passes its check is inside the region (20_memory.md R71). -/
theorem State.ConfigOk.fetch_lt {s : State} (h : s.ConfigOk) {k : Nat} (hk : s.CanFetch k) : s.pc.toInt + k < s.memWords := by
  have := h.limit; have := h.capacityNonneg; have := h.bottomInside; have := hk.2
  omega

theorem State.ConfigOk.fetch_eq {s : State} (h : s.ConfigOk) {k : Nat} (hk : s.CanFetch k) :
    s.fetch k = .ok (s.memory.read (s.pc.toInt + k).toNat) :=
  State.fetch_ok.mpr ⟨hk, h.fetch_lt hk, rfl⟩

theorem State.fetch_not {s : State} {k : Nat} (hk : ¬s.CanFetch k) : s.fetch k = .error (.raised .invalidAddress) :=
  State.fetch_error.mpr (.inl ⟨hk, rfl⟩)

theorem State.operand_eq (s : State) (k : Nat) (w : Word) : s.operand k w = (s.fetch k).map fun _ => w := by
  unfold State.operand
  cases s.fetch k <;> rfl

theorem State.operand_ok {s : State} {k : Nat} {w v : Word} :
    s.operand k w = .ok v ↔ (s.CanFetch k ∧ s.pc.toInt + k < s.memWords) ∧ v = w := by
  rw [State.operand, Check.bind_ok]
  simp only [State.fetch_ok, Check.pure_eq, Except.ok.injEq]
  constructor
  · rintro ⟨_, ⟨h1, h2, -⟩, rfl⟩
    exact ⟨⟨h1, h2⟩, rfl⟩
  · rintro ⟨⟨h1, h2⟩, rfl⟩
    exact ⟨_, ⟨h1, h2, rfl⟩, rfl⟩

theorem State.operand_error {s : State} {k : Nat} {w : Word} {e : Stop} :
    s.operand k w = .error e ↔ s.fetch k = .error e := by
  rw [State.operand, Check.bind_error]
  simp

theorem State.ConfigOk.operand_eq {s : State} (h : s.ConfigOk) {k : Nat} (hk : s.CanFetch k) (w : Word) :
    s.operand k w = .ok w :=
  State.operand_ok.mpr ⟨⟨hk, h.fetch_lt hk⟩, rfl⟩

theorem State.operand_not {s : State} {k : Nat} (hk : ¬s.CanFetch k) (w : Word) :
    s.operand k w = .error (.raised .invalidAddress) :=
  State.operand_error.mpr (State.fetch_not hk)

/-- The word shown to the decoder is the fetched one where the fetch passes. -/
theorem State.ConfigOk.shownWord_eq {s : State} (h : s.ConfigOk) {k : Nat} (hk : s.CanFetch k) :
    s.shownWord k = s.memory.read (s.pc.toInt + k).toNat := by
  rw [State.shownWord, h.fetch_eq hk]

theorem State.shownWord_not {s : State} {k : Nat} (hk : ¬s.CanFetch k) : s.shownWord k = 0 := by
  rw [State.shownWord, State.fetch_not hk]

theorem State.recognise_ok {s : State} {need : Capability} {u : Unit} :
    s.recognise need = .ok u ↔ (need = .extJmp → s.extJmp = true) ∧ (need = .extCall → s.extCall = true) := by
  cases need <;> simp [State.recognise]

theorem State.recognise_error {s : State} {need : Capability} {e : Stop} :
    s.recognise need = .error e ↔
      ((need = .extJmp ∧ s.extJmp = false) ∨ (need = .extCall ∧ s.extCall = false)) ∧ e = .raised .illegalInstruction := by
  cases need <;> cases hj : s.extJmp <;> cases hc : s.extCall <;> simp [State.recognise, hj, hc] <;> exact eq_comm

/-! ### Operands -/

@[simp] theorem reg_index (r : GReg) : reg r.index = .ok r := by cases r <;> rfl

@[simp] theorem regX_index (x : Source) : regX x.index = .ok x := by
  cases x with
  | gpr r => cases r <;> rfl
  | result => rfl

theorem reg_ok {w : Word} {r : GReg} : reg w = .ok r ↔ w = r.index := by
  constructor
  · intro h
    apply BitVec.eq_of_toInt_eq
    unfold reg at h
    repeat' split at h
    all_goals first
      | (cases h; done)
      | (rename_i h'
         cases h
         rw [h']
         decide)
  · rintro rfl
    exact reg_index r

theorem reg_error {w : Word} {e : Stop} :
    reg w = .error e ↔ isRegOperand w = false ∧ e = .raised .illegalOperand := by
  have key : isRegOperand w = false ↔ w.toInt < 0 ∨ 3 < w.toInt := by
    simp only [isRegOperand, Bool.and_eq_false_iff, decide_eq_false_iff_not]
    omega
  rw [key]
  unfold reg
  repeat' split
  all_goals simp only [reduceCtorEq, false_iff, Except.error.injEq, not_and]
  all_goals first
    | (intro h
       omega)
    | (constructor
       · rintro rfl
         exact ⟨by omega, rfl⟩
       · rintro ⟨-, rfl⟩
         rfl)

theorem regX_ok {w : Word} {x : Source} : regX w = .ok x ↔ w = x.index := by
  constructor
  · intro h
    unfold regX at h
    split at h
    · rename_i h'
      cases h
      exact BitVec.eq_of_toInt_eq (h'.trans (by decide))
    · cases hr : reg w with
      | error e => rw [hr] at h; cases h
      | ok r => rw [hr] at h; cases h; exact reg_ok.mp hr
  · rintro rfl
    exact regX_index x

theorem regX_error {w : Word} {e : Stop} :
    regX w = .error e ↔ isRegXOperand w = false ∧ e = .raised .illegalOperand := by
  have key : isRegXOperand w = false ↔ w.toInt ≠ 4 ∧ isRegOperand w = false := by
    simp [isRegXOperand, isRegOperand]
    omega
  rw [key, and_assoc, ← reg_error]
  unfold regX
  split
  · simp_all
  · rename_i h
    cases reg w <;> simp [h, Except.map]

/-! ### The stack address calculator -/

theorem State.pushAddress_ok {s : State} {a : Int} :
    s.pushAddress = .ok a ↔ s.sn.toInt < s.capacity.toInt ∧ a = s.stackBottom.toInt - s.sn.toInt := by
  unfold State.pushAddress State.slot
  split
  · simp
    omega
  · simp only [Except.ok.injEq, eq_comm]
    constructor <;> intro h <;> first | exact ⟨by omega, h⟩ | exact h.2

theorem State.pushAddress_error {s : State} {e : Stop} :
    s.pushAddress = .error e ↔ s.capacity.toInt ≤ s.sn.toInt ∧ e = .raised .invalidStackOperation := by
  unfold State.pushAddress
  split <;> simp_all [eq_comm]

theorem State.popAddress_ok {s : State} {a : Int} :
    s.popAddress = .ok a ↔ 0 < s.sn.toInt ∧ a = s.stackBottom.toInt - s.sn.toInt + 1 := by
  unfold State.popAddress State.slot
  split
  · simp
    omega
  · simp only [Except.ok.injEq]
    constructor
    · intro h
      exact ⟨by omega, by omega⟩
    · rintro ⟨-, h⟩
      omega

theorem State.popAddress_error {s : State} {e : Stop} :
    s.popAddress = .error e ↔ s.sn.toInt ≤ 0 ∧ e = .raised .invalidStackOperation := by
  unfold State.popAddress
  split <;> simp_all [eq_comm]

theorem State.indexedAddress_ok {s : State} {imm : Word} {a : Int} :
    s.indexedAddress imm = .ok a ↔
      (0 ≤ imm.toInt + s.regD.toInt ∧ imm.toInt + s.regD.toInt < s.sn.toInt) ∧
        a = s.stackBottom.toInt - (s.sn.toInt - (imm.toInt + s.regD.toInt) - 1) := by
  unfold State.indexedAddress State.slot State.offset
  split
  · simp
    omega
  · split
    · simp
      omega
    · simp only [Except.ok.injEq]
      constructor
      · intro h
        exact ⟨⟨by omega, by omega⟩, h.symm⟩
      · rintro ⟨-, h⟩
        exact h.symm

theorem State.indexedAddress_error {s : State} {imm : Word} {e : Stop} :
    s.indexedAddress imm = .error e ↔
      ¬(0 ≤ imm.toInt + s.regD.toInt ∧ imm.toInt + s.regD.toInt < s.sn.toInt) ∧ e = .raised .invalidStackOperation := by
  unfold State.indexedAddress State.offset
  split
  · simp only [Except.error.injEq, eq_comm]
    constructor
    · intro h
      exact ⟨by omega, h⟩
    · rintro ⟨-, h⟩
      exact h
  · split
    · simp only [Except.error.injEq, eq_comm]
      constructor
      · intro h
        exact ⟨by omega, h⟩
      · rintro ⟨-, h⟩
        exact h
    · simp
      omega

theorem State.pushWord_ok {s t : State} {v : Word} :
    s.pushWord v = .ok t ↔
      s.sn.toInt < s.capacity.toInt ∧
        (0 ≤ s.stackBottom.toInt - s.sn.toInt ∧ s.stackBottom.toInt - s.sn.toInt < s.memWords) ∧
        t = { s with memory := s.memory.write (s.stackBottom.toInt - s.sn.toInt).toNat v, sn := s.sn + 1 } := by
  simp only [State.pushWord, Check.bind_ok, State.pushAddress_ok, State.memWrite_ok, Check.pure_eq, Except.ok.injEq]
  constructor
  · rintro ⟨_, ⟨h1, rfl⟩, _, ⟨h2, rfl⟩, rfl⟩
    exact ⟨h1, h2, rfl⟩
  · rintro ⟨h1, h2, rfl⟩
    exact ⟨_, ⟨h1, rfl⟩, _, ⟨h2, rfl⟩, rfl⟩

theorem State.pushWord_error {s : State} {v : Word} {e : Stop} :
    s.pushWord v = .error e ↔
      (s.capacity.toInt ≤ s.sn.toInt ∧ e = .raised .invalidStackOperation) ∨
        (s.sn.toInt < s.capacity.toInt ∧
          ¬(0 ≤ s.stackBottom.toInt - s.sn.toInt ∧ s.stackBottom.toInt - s.sn.toInt < s.memWords) ∧
          e = .stuck .outsideRegion) := by
  simp only [State.pushWord, Check.bind_error, State.pushAddress_ok, State.pushAddress_error, State.memWrite_error,
    Check.pure_eq, reduceCtorEq, and_false, exists_false, or_false]
  constructor
  · rintro (h | ⟨_, ⟨h1, rfl⟩, h2⟩)
    · exact .inl h
    · exact .inr ⟨h1, h2⟩
  · rintro (h | ⟨h1, h2⟩)
    · exact .inl h
    · exact .inr ⟨_, ⟨h1, rfl⟩, h2⟩

theorem State.popWord_ok {s t : State} {v : Word} :
    s.popWord = .ok (v, t) ↔
      0 < s.sn.toInt ∧
        (0 ≤ s.stackBottom.toInt - s.sn.toInt + 1 ∧ s.stackBottom.toInt - s.sn.toInt + 1 < s.memWords) ∧
        v = s.memory.read (s.stackBottom.toInt - s.sn.toInt + 1).toNat ∧ t = { s with sn := s.sn - 1 } := by
  simp only [State.popWord, Check.bind_ok, State.popAddress_ok, State.memRead_ok, Check.pure_eq, Except.ok.injEq,
    Prod.mk.injEq]
  constructor
  · rintro ⟨_, ⟨h1, rfl⟩, _, ⟨h2, rfl⟩, rfl, rfl⟩
    exact ⟨h1, h2, rfl, rfl⟩
  · rintro ⟨h1, h2, rfl, rfl⟩
    exact ⟨_, ⟨h1, rfl⟩, _, ⟨h2, rfl⟩, rfl, rfl⟩

theorem State.popWord_error {s : State} {e : Stop} :
    s.popWord = .error e ↔
      (s.sn.toInt ≤ 0 ∧ e = .raised .invalidStackOperation) ∨
        (0 < s.sn.toInt ∧
          ¬(0 ≤ s.stackBottom.toInt - s.sn.toInt + 1 ∧ s.stackBottom.toInt - s.sn.toInt + 1 < s.memWords) ∧
          e = .stuck .outsideRegion) := by
  simp only [State.popWord, Check.bind_error, State.popAddress_ok, State.popAddress_error, State.memRead_error,
    Check.pure_eq, reduceCtorEq, and_false, exists_false, or_false]
  constructor
  · rintro (h | ⟨_, ⟨h1, rfl⟩, h2⟩)
    · exact .inl h
    · exact .inr ⟨h1, h2⟩
  · rintro (h | ⟨h1, h2⟩)
    · exact .inl h
    · exact .inr ⟨_, ⟨h1, rfl⟩, h2⟩

/-! ### Transfers, division, devices -/

theorem State.branch_ok {s t : State} {taken : Bool} {target : Word} :
    s.branch taken target = .ok t ↔
      (taken = true ∧ (s.CanFetch 1 ∧ s.pc.toInt + 1 < s.memWords) ∧ t = s.jumpTo target) ∨
        (taken = false ∧ t = s.advance 2) := by
  cases taken
  · simp [State.branch, eq_comm]
  · simp only [State.branch, if_pos, Check.bind_ok, State.operand_ok, Check.pure_eq, Except.ok.injEq]
    constructor
    · rintro ⟨_, ⟨h, rfl⟩, rfl⟩
      exact .inl ⟨by simp, by simpa using h, rfl⟩
    · rintro (⟨-, h, rfl⟩ | ⟨h, -⟩)
      · exact ⟨_, ⟨by simpa using h, rfl⟩, rfl⟩
      · cases h

theorem State.branch_error {s : State} {taken : Bool} {target : Word} {e : Stop} :
    s.branch taken target = .error e ↔ taken = true ∧ s.fetch 1 = .error e := by
  cases taken
  · simp [State.branch]
  · simp [State.branch, Check.bind_error, State.operand_error]

theorem aluDiv_ok {x y v : Word} : aluDiv x y = .ok v ↔ y.toInt ≠ 0 ∧ v = wrap32 (x.toInt.tdiv y.toInt) := by
  unfold aluDiv
  split <;> simp_all [eq_comm]

theorem aluDiv_error {x y : Word} {e : Stop} : aluDiv x y = .error e ↔ y.toInt = 0 ∧ e = .raised .divByZero := by
  unfold aluDiv
  split <;> simp_all [eq_comm]

theorem State.readInt_ok {s t : State} {x : IntAnswer} :
    s.readInt = .ok (x, t) ↔ ∃ src, s.input.readInt = some (x, src) ∧ t = { s with input := src } := by
  unfold State.readInt
  split
  · rename_i heq
    simp only [heq, Except.ok.injEq, Prod.mk.injEq, Option.some.injEq]
    constructor
    · rintro ⟨rfl, rfl⟩
      exact ⟨_, ⟨rfl, rfl⟩, rfl⟩
    · rintro ⟨_, ⟨rfl, rfl⟩, rfl⟩
      exact ⟨rfl, rfl⟩
  · simp_all

theorem State.readInt_error {s : State} {e : Stop} :
    s.readInt = .error e ↔ s.input.readInt = none ∧ e = .stuck .inputUnanswered := by
  unfold State.readInt
  split <;> rename_i heq
  · simp [heq]
  · simp only [heq, Except.error.injEq, true_and]
    exact eq_comm

theorem State.readByte_ok {s t : State} {x : ByteAnswer} :
    s.readByte = .ok (x, t) ↔ ∃ src, s.input.readByte = some (x, src) ∧ t = { s with input := src } := by
  unfold State.readByte
  split
  · rename_i heq
    simp only [heq, Except.ok.injEq, Prod.mk.injEq, Option.some.injEq]
    constructor
    · rintro ⟨rfl, rfl⟩
      exact ⟨_, ⟨rfl, rfl⟩, rfl⟩
    · rintro ⟨_, ⟨rfl, rfl⟩, rfl⟩
      exact ⟨rfl, rfl⟩
  · simp_all

theorem State.readByte_error {s : State} {e : Stop} :
    s.readByte = .error e ↔ s.input.readByte = none ∧ e = .stuck .inputUnanswered := by
  unfold State.readByte
  split <;> rename_i heq
  · simp [heq]
  · simp only [heq, Except.error.injEq, true_and]
    exact eq_comm

/-! ### The step and the reset -/

/-- Everything a step that answers a next state can have done (40_cycle.md R120 to R123). -/
theorem step_cases {s t : State} (h : step s = .next t) :
    s.live = true ∧
      ((s.status ≠ .running ∧ t = s) ∨
        (s.status = .running ∧ ¬s.CanFetch 0 ∧ t = s.raise .invalidAddress) ∨
        (s.status = .running ∧ s.CanFetch 0 ∧ (∃ e, decode s.shownWords = .error e) ∧ t = s.raise .illegalInstruction) ∨
        (s.status = .running ∧ s.CanFetch 0 ∧ ∃ i rest, decode s.shownWords = .ok (i, rest) ∧ exec i s = .next t)) := by
  unfold step at h
  split at h
  · rename_i hlive
    refine ⟨hlive, ?_⟩
    split at h
    · rename_i hrun
      split at h
      · rename_i e he
        rcases State.fetch_error.mp he with ⟨hk, rfl⟩ | ⟨-, -, rfl⟩
        · exact .inr (.inl ⟨hrun, hk, by simpa [eq_comm] using h⟩)
        · simp at h
      · rename_i w hw
        have hk := (State.fetch_ok.mp hw).1
        split at h
        · rename_i i rest hd
          exact .inr (.inr (.inr ⟨hrun, hk, i, rest, hd, h⟩))
        · rename_i e hd
          exact .inr (.inr (.inl ⟨hrun, hk, ⟨e, hd⟩, by simpa [eq_comm] using h⟩))
    · rename_i hrun
      exact .inl ⟨hrun, by simpa [eq_comm] using h⟩
  · cases h

/-- Everything the host's reset does when it answers a next state (70_reset_and_hazards.md R292). -/
theorem resetCore_next {s t : State} :
    resetCore s = .next t ↔
      s.live = true ∧
        t = { s with
          memory := s.memory.zeroRange s.stackLimit.toInt s.stackBottom.toInt
          regA := 0
          regB := 0
          regC := 0
          regD := 0
          result := if s.extJmp then 0 else s.result
          sn := 0
          pc := 0
          status := .running } := by
  unfold resetCore
  split <;> rename_i hlive
  · simp only [hlive, true_and, Host.Outcome.next.injEq]
    exact eq_comm
  · simp [hlive]

end Sys2Proof.Machine
end

