-- ==== Sys2Proof/Laws/Exec.lean ====
section
/-! SUPPORT. Everything an instruction that answers a next state can have done: it raised a fault, or it was an `in` that
ended in IOError, or it completed, and then `Completes` says how. -/

namespace Sys2Proof.Machine

/-- How each instruction leaves the state when it completes: its own effect, and the conditions under which it has it. -/
def Completes (i : Instr) (s t : State) : Prop :=
  match i with
  | .nop => t = s.advance 1
  | .halt => t = { s with status := .halted }.advance 1
  | .add w => ∃ n : GReg, w = n.index ∧ t = (s.setMirrored .a (aluAdd s.regA (s.get n))).advance 2
  | .sub w => ∃ n : GReg, w = n.index ∧ t = (s.setMirrored .a (aluSub s.regA (s.get n))).advance 2
  | .mul w => ∃ n : GReg, w = n.index ∧ t = (s.setMirrored .a (aluMul s.regA (s.get n))).advance 2
  | .div w => ∃ (n : GReg) (q : Word), w = n.index ∧ aluDiv s.regA (s.get n) = .ok q ∧ t = (s.setMirrored .a q).advance 2
  | .inc w => ∃ n : GReg, w = n.index ∧ t = (s.setMirrored n (aluInc (s.get n))).advance 2
  | .dec w => ∃ n : GReg, w = n.index ∧ t = (s.setMirrored n (aluDec (s.get n))).advance 2
  | .loop target => s.branch s.condLoop target = .ok t
  | .mov w imm => ∃ n : GReg, w = n.index ∧ t = (s.set n imm).advance 3
  | .load w imm => ∃ (n : GReg) (a : Int) (v : Word), w = n.index ∧ s.indexedAddress imm = .ok a ∧ s.memRead a = .ok v ∧
      t = (s.set n v).advance 3
  | .store w imm => ∃ (n : GReg) (a : Int) (u : State), w = n.index ∧ s.indexedAddress imm = .ok a ∧
      s.memWrite a (s.get n) = .ok u ∧ t = u.advance 3
  | .in_ w => ∃ (n : GReg) (src : InputSource), w = n.index ∧
      ((∃ z, s.input.readInt = some (.int z, src) ∧ fitsWord z = true ∧
          t = (({ s with input := src } : State).set n (wrap32 z)).advance 2) ∨
        (s.input.readInt = some (.eof, src) ∧ t = (({ s with input := src } : State).setEndOfInput n).advance 2))
  | .get w => ∃ (n : GReg) (src : InputSource), w = n.index ∧
      ((∃ b, s.input.readByte = some (.byte b, src) ∧ t = (({ s with input := src } : State).set n (zext8 b)).advance 2) ∨
        (s.input.readByte = some (.eof, src) ∧ t = (({ s with input := src } : State).setEndOfInput n).advance 2))
  | .out w => ∃ n : GReg, w = n.index ∧ t = (s.emit (decText (s.get n))).advance 2
  | .put w => ∃ n : GReg, w = n.index ∧ t = (s.emit [(s.get n).setWidth 8]).advance 2
  | .swap w1 w2 => ∃ x y : GReg, w1 = x.index ∧ w2 = y.index ∧ t = ((s.set x (s.get y)).set y (s.get x)).advance 3
  | .push w => ∃ (n : GReg) (u : State), w = n.index ∧ s.pushWord (s.get n) = .ok u ∧ t = u.advance 2
  | .pop w => ∃ (n : GReg) (v : Word) (u : State), w = n.index ∧ s.popWord = .ok (v, u) ∧ t = (u.set n v).advance 2
  | .cmp w1 w2 => ∃ x y : Source, w1 = x.index ∧ w2 = y.index ∧ s.extJmp = true ∧
      t = (s.setResult (aluSub (s.source x) (s.source y))).advance 3
  | .jmp target => s.extJmp = true ∧ s.branch true target = .ok t
  | .jz target => s.extJmp = true ∧ s.branch s.condZero target = .ok t
  | .jnz target => s.extJmp = true ∧ s.branch s.condNonZero target = .ok t
  | .jgt target => s.extJmp = true ∧ s.branch s.condPositive target = .ok t
  | .call target => s.extCall = true ∧ ∃ u, s.pushWord (s.pc + 2) = .ok u ∧ t = u.jumpTo target
  | .ret => s.extCall = true ∧ ∃ v u, s.popWord = .ok (v, u) ∧ t = u.jumpTo v

/-- An instruction that answers a next state completed, or raised a fault other than IOError in the state it began with, or is an
`in` whose answer was bad and whose input is consumed. -/
theorem exec_cases {i : Instr} {s t : State} (h : exec i s = .next t) :
    Completes i s t ∨ (∃ c, c ≠ .ioError ∧ t = s.raise c) ∨
      ∃ w answer src, i = .in_ w ∧ s.input.readInt = some (answer, src) ∧
        t = ({ s with input := src } : State).raise .ioError := by
  cases i
  case nop => exact .inl (by simpa [Completes, exec, execNop, eq_comm] using h)
  case halt => exact .inl (by simpa [Completes, exec, execHalt, eq_comm] using h)
  case in_ w =>
    simp only [exec, execIn] at h
    rcases State.conclude_next.mp h with h | ⟨c, hc, rfl⟩
    · simp only [Check.bind_ok, State.operand_ok, reg_ok] at h
      obtain ⟨_, ⟨-, rfl⟩, n, rfl, ⟨x, u⟩, hread, h⟩ := h
      obtain ⟨src, hsrc, rfl⟩ := State.readInt_ok.mp hread
      cases x with
      | malformed => exact .inr (.inr ⟨_, _, src, rfl, hsrc, (Except.ok.inj h).symm⟩)
      | eof => exact .inl ⟨n, src, rfl, .inr ⟨hsrc, (Except.ok.inj h).symm⟩⟩
      | int z =>
        have h := (Except.ok.inj h).symm
        split at h
        · exact .inl ⟨n, src, rfl, .inl ⟨z, hsrc, ‹_›, h⟩⟩
        · exact .inr (.inr ⟨_, _, src, rfl, hsrc, h⟩)
    · refine .inr (.inl ⟨c, ?_, rfl⟩)
      rintro rfl
      simp only [Check.bind_error, State.operand_error, State.fetch_error, reg_error, State.readInt_error] at hc
      rcases hc with hc | ⟨_, -, hc | ⟨_, -, hc | ⟨⟨x, u⟩, -, hc⟩⟩⟩
      iterate 3 simp at hc
      cases x <;> cases hc
  case get w =>
    simp only [exec, execGet] at h
    rcases State.conclude_next.mp h with h | ⟨c, hc, rfl⟩
    · simp only [Check.bind_ok, State.operand_ok, reg_ok] at h
      obtain ⟨_, ⟨-, rfl⟩, n, rfl, ⟨x, u⟩, hread, h⟩ := h
      obtain ⟨src, hsrc, rfl⟩ := State.readByte_ok.mp hread
      cases x with
      | byte b => exact .inl ⟨n, src, rfl, .inl ⟨b, hsrc, (Except.ok.inj h).symm⟩⟩
      | eof => exact .inl ⟨n, src, rfl, .inr ⟨hsrc, (Except.ok.inj h).symm⟩⟩
    · refine .inr (.inl ⟨c, ?_, rfl⟩)
      rintro rfl
      simp only [Check.bind_error, State.operand_error, State.fetch_error, reg_error, State.readByte_error] at hc
      rcases hc with hc | ⟨_, -, hc | ⟨_, -, hc | ⟨⟨x, u⟩, -, hc⟩⟩⟩
      iterate 3 simp at hc
      cases x <;> cases hc
  case put w =>
    simp only [exec, execPut] at h
    rcases State.conclude_next.mp h with hok | ⟨c, hc, rfl⟩
    · simp only [Check.bind_ok, State.operand_ok, reg_ok] at hok
      obtain ⟨_, ⟨-, rfl⟩, n, rfl, hok⟩ := hok
      split at hok
      · cases hok
      · exact .inl ⟨n, rfl, (Except.ok.inj hok).symm⟩
    · refine .inr (.inl ⟨c, ?_, rfl⟩)
      rintro rfl
      simp only [Check.bind_error, State.operand_error, State.fetch_error, reg_error] at hc
      rcases hc with hc | ⟨_, -, hc | ⟨_, -, hc⟩⟩
      iterate 2 simp at hc
      split at hc <;> cases hc
  case loop target =>
    rcases State.conclude_next.mp (show s.conclude (s.branch s.condLoop target) = .next t from h) with h | ⟨c, hc, rfl⟩
    · exact .inl h
    · refine .inr (.inl ⟨c, ?_, rfl⟩)
      rintro rfl
      simp [State.branch_error, State.fetch_error] at hc
  all_goals
    simp only [exec, execAdd, execSub, execMul, execDiv, execInc, execDec, execMov, execLoad,
      execStore, execOut, execSwap, execPush, execPop, execCmp, execJmp, execJz, execJnz, execJgt, execCall, execRet] at h
    rcases State.conclude_next.mp h with h | ⟨c, hc, rfl⟩
    · refine .inl ?_
      simp only [Check.bind_ok, State.operand_ok, reg_ok, regX_ok, State.recognise_ok, Check.pure_eq, Except.ok.injEq,
        Prod.exists, forall_const, reduceCtorEq, false_implies, and_true, true_and] at h
      simp only [Completes]
      grind
    · refine .inr (.inl ⟨c, ?_, rfl⟩)
      rintro rfl
      simp [Check.bind_error, State.operand_error, State.fetch_error, reg_error, regX_error, State.recognise_error,
        aluDiv_error, State.indexedAddress_error, State.memRead_error, State.memWrite_error, State.pushWord_error,
        State.popWord_error, State.branch_error] at hc

end Sys2Proof.Machine
end

