-- ==== Sys2Proof/Laws/Lifecycle.lean ====
section
/-! SUPPORT. What the host's operations and a run of the core can do, said once each. -/

namespace Sys2Proof.Machine

/-- The bounds of create, as numbers. -/
theorem createAllowed_iff {memWords stackBottom capacity : Nat} :
    createAllowed memWords stackBottom capacity = true ↔
      memWords % Config.blockWords = 0 ∧ Config.blockWords ≤ memWords ∧ memWords ≤ Config.maxMemWords ∧
        capacity ≤ stackBottom ∧ stackBottom + 1 ≤ memWords := by
  simp only [createAllowed, Bool.and_eq_true, decide_eq_true_eq, and_assoc]

/-- A create that answers a core had arguments inside the bounds and a region in canonical form. -/
theorem create_next {region : Memory} {memWords stackBottom capacity : Nat} {extJmp extCall : Bool}
    {input : InputSource} {output : List Byte} {s : State}
    (h : create region memWords stackBottom capacity extJmp extCall input output = .next s) :
    createAllowed memWords stackBottom capacity = true ∧ region.wf ∧ region.within memWords := by
  unfold create at h
  split at h
  · assumption
  · cases h

/-- Destroy ends a live core and writes nothing else. -/
theorem destroy_next {s t : State} : destroy s = .next t ↔ s.live = true ∧ t = { s with live := false } := by
  unfold destroy
  split <;> rename_i hlive
  · simp only [hlive, true_and, Host.Outcome.next.injEq]
    exact eq_comm
  · simp [hlive]

/-- A word below 2^31 is its own signed value. -/
theorem toInt_ofNat_of_lt {n : Nat} (h : n < 2 ^ 31) : (BitVec.ofNat 32 n).toInt = n := by
  rw [BitVec.toInt_eq_toNat_cond, BitVec.toNat_ofNat]
  split <;> omega

/-- What every step keeps, every run keeps: the induction over the steps of any core. -/
theorem run_keeps (M : Host.Core) {P : M.State → Prop} (hP : ∀ s t, P s → M.step s = .next t → P t) :
    ∀ (k : Nat) (s t : M.State), P s → M.run k s = .next t → P t := by
  intro k
  induction k with
  | zero =>
    intro s t hs h
    rw [Host.Core.run] at h
    cases h
    exact hs
  | succ k ih =>
    intro s t hs h
    rw [Host.Core.run] at h
    split at h
    · rename_i u hu
      exact ih _ _ (hP _ _ hs hu) h
    · cases h
    · cases h

/-- The count that a run starts with is added to the count it ends with. -/
theorem runLoop_shift : ∀ (budget k j : Nat) (s t : State) (m : Nat),
    runLoop budget k s = .next (t, m) → runLoop budget (k + j) s = .next (t, m + j) := by
  intro budget
  induction budget with
  | zero =>
    intro k j s t m h
    simp only [runLoop, Host.Outcome.next.injEq, Prod.mk.injEq] at h ⊢
    exact ⟨h.1, by omega⟩
  | succ budget ih =>
    intro k j s t m h
    simp only [runLoop] at h ⊢
    split at h
    · rename_i hr
      rw [if_pos hr]
      rcases hst : step s with u | f | r
      · simp only [hst] at h ⊢
        rw [show k + j + 1 = k + 1 + j by omega]
        exact ih _ _ _ _ _ h
      · simp [hst] at h
      · simp [hst] at h
    · rename_i hr
      rw [if_neg hr]
      simp only [Host.Outcome.next.injEq, Prod.mk.injEq] at h ⊢
      exact ⟨h.1, by omega⟩

end Sys2Proof.Machine
end

