-- ==== Sys2Proof/Laws/PerInstr.lean ====
section
/-! SUPPORT. What holds of every instruction as syntax, one lemma per constructor. -/

namespace Sys2Proof.Laws

/-- The shape of an encoding (30_encoding.md R90, R95): the opcode is one of 0 to 25, the first word is the opcode, and there are
one to three words. -/
def EncodingShape.Statement (i : Instr) : Prop :=
  i.opcode ≤ 25 ∧ (encode i).head? = some (BitVec.ofNat 32 i.opcode) ∧ 1 ≤ i.lengthWords ∧ i.lengthWords ≤ 3

theorem EncodingShape.nop : EncodingShape.Statement .nop := by
  simp [EncodingShape.Statement, Instr.opcode, encode, Instr.lengthWords, Instr.operands]

theorem EncodingShape.halt : EncodingShape.Statement .halt := by
  simp [EncodingShape.Statement, Instr.opcode, encode, Instr.lengthWords, Instr.operands]

theorem EncodingShape.add (n : Word) : EncodingShape.Statement (.add n) := by
  simp [EncodingShape.Statement, Instr.opcode, encode, Instr.lengthWords, Instr.operands]

theorem EncodingShape.sub (n : Word) : EncodingShape.Statement (.sub n) := by
  simp [EncodingShape.Statement, Instr.opcode, encode, Instr.lengthWords, Instr.operands]

theorem EncodingShape.mul (n : Word) : EncodingShape.Statement (.mul n) := by
  simp [EncodingShape.Statement, Instr.opcode, encode, Instr.lengthWords, Instr.operands]

theorem EncodingShape.div (n : Word) : EncodingShape.Statement (.div n) := by
  simp [EncodingShape.Statement, Instr.opcode, encode, Instr.lengthWords, Instr.operands]

theorem EncodingShape.inc (n : Word) : EncodingShape.Statement (.inc n) := by
  simp [EncodingShape.Statement, Instr.opcode, encode, Instr.lengthWords, Instr.operands]

theorem EncodingShape.dec (n : Word) : EncodingShape.Statement (.dec n) := by
  simp [EncodingShape.Statement, Instr.opcode, encode, Instr.lengthWords, Instr.operands]

theorem EncodingShape.loop (target : Word) : EncodingShape.Statement (.loop target) := by
  simp [EncodingShape.Statement, Instr.opcode, encode, Instr.lengthWords, Instr.operands]

theorem EncodingShape.mov (n imm : Word) : EncodingShape.Statement (.mov n imm) := by
  simp [EncodingShape.Statement, Instr.opcode, encode, Instr.lengthWords, Instr.operands]

theorem EncodingShape.load (n imm : Word) : EncodingShape.Statement (.load n imm) := by
  simp [EncodingShape.Statement, Instr.opcode, encode, Instr.lengthWords, Instr.operands]

theorem EncodingShape.store (n imm : Word) : EncodingShape.Statement (.store n imm) := by
  simp [EncodingShape.Statement, Instr.opcode, encode, Instr.lengthWords, Instr.operands]

theorem EncodingShape.in_ (n : Word) : EncodingShape.Statement (.in_ n) := by
  simp [EncodingShape.Statement, Instr.opcode, encode, Instr.lengthWords, Instr.operands]

theorem EncodingShape.get (n : Word) : EncodingShape.Statement (.get n) := by
  simp [EncodingShape.Statement, Instr.opcode, encode, Instr.lengthWords, Instr.operands]

theorem EncodingShape.out (n : Word) : EncodingShape.Statement (.out n) := by
  simp [EncodingShape.Statement, Instr.opcode, encode, Instr.lengthWords, Instr.operands]

theorem EncodingShape.put (n : Word) : EncodingShape.Statement (.put n) := by
  simp [EncodingShape.Statement, Instr.opcode, encode, Instr.lengthWords, Instr.operands]

theorem EncodingShape.swap (a b : Word) : EncodingShape.Statement (.swap a b) := by
  simp [EncodingShape.Statement, Instr.opcode, encode, Instr.lengthWords, Instr.operands]

theorem EncodingShape.push (n : Word) : EncodingShape.Statement (.push n) := by
  simp [EncodingShape.Statement, Instr.opcode, encode, Instr.lengthWords, Instr.operands]

theorem EncodingShape.pop (n : Word) : EncodingShape.Statement (.pop n) := by
  simp [EncodingShape.Statement, Instr.opcode, encode, Instr.lengthWords, Instr.operands]

theorem EncodingShape.cmp (a b : Word) : EncodingShape.Statement (.cmp a b) := by
  simp [EncodingShape.Statement, Instr.opcode, encode, Instr.lengthWords, Instr.operands]

theorem EncodingShape.jmp (target : Word) : EncodingShape.Statement (.jmp target) := by
  simp [EncodingShape.Statement, Instr.opcode, encode, Instr.lengthWords, Instr.operands]

theorem EncodingShape.jz (target : Word) : EncodingShape.Statement (.jz target) := by
  simp [EncodingShape.Statement, Instr.opcode, encode, Instr.lengthWords, Instr.operands]

theorem EncodingShape.jnz (target : Word) : EncodingShape.Statement (.jnz target) := by
  simp [EncodingShape.Statement, Instr.opcode, encode, Instr.lengthWords, Instr.operands]

theorem EncodingShape.jgt (target : Word) : EncodingShape.Statement (.jgt target) := by
  simp [EncodingShape.Statement, Instr.opcode, encode, Instr.lengthWords, Instr.operands]

theorem EncodingShape.call (target : Word) : EncodingShape.Statement (.call target) := by
  simp [EncodingShape.Statement, Instr.opcode, encode, Instr.lengthWords, Instr.operands]

theorem EncodingShape.ret : EncodingShape.Statement .ret := by
  simp [EncodingShape.Statement, Instr.opcode, encode, Instr.lengthWords, Instr.operands]

end Sys2Proof.Laws
end

