-- ==== Sys2Proof/Tests/Slice0.lean ====
section
/-! SUPPORT. Tests of one step each, against spec/95_test_vectors.md (the vector's id stands in front of each), the decoding
of words written out from 30_encoding.md R91 and R95, and a witness for the hypotheses of every obligation that has any. -/

open Sys2Proof Sys2Proof.Machine

namespace Sys2Proof.Tests

/-- The reference core of 95_test_vectors.md with the words `ws` at `p` and pc there, over what the state already lists. -/
def prog (p : Nat) (ws : List Word) (s : State) : State :=
  { s with pc := BitVec.ofNat 32 p, memory := placeWords p ws ++ s.memory }

/-- The reference core with the words `ws` on the stack, the oldest first. -/
def stack (ws : List Word) (s : State) : State :=
  { s with sn := BitVec.ofNat 32 ws.length, memory := placeWords (1024 - ws.length) ws.reverse }

/-- What one step leaves, read through `f`. -/
def step1 {α : Type} (f : State → α) (s : State) : Option α :=
  match step s with
  | .next t => some (f t)
  | _ => none

/-- The reference core with A and B set. -/
def ab (x y : Word) : State := { State.reset with regA := x, regB := y }

/-- The largest and the least word. -/
def maxWord : Word := 0x7FFFFFFF
def minWord : Word := 0x80000000

/-! ### WellFormed refuses each ill-formed term (30_encoding.md R93) -/

theorem test_wf_register : Instr.wellFormed (.add 3) = true ∧ Instr.wellFormed (.add 4) = false ∧
    Instr.wellFormed (.sub 4) = false ∧ Instr.wellFormed (.mul (-1)) = false ∧ Instr.wellFormed (.div 7) = false ∧
    Instr.wellFormed (.inc 9) = false ∧ Instr.wellFormed (.dec 4) = false := by decide
theorem test_wf_register_immediate : Instr.wellFormed (.mov 9 10) = false ∧ Instr.wellFormed (.load 4 0) = false ∧
    Instr.wellFormed (.store 0x80000000 0) = false ∧ Instr.wellFormed (.mov 0 (-1)) = true := by decide
theorem test_wf_io_stack : Instr.wellFormed (.in_ 5) = false ∧ Instr.wellFormed (.get 4) = false ∧
    Instr.wellFormed (.out (-1)) = false ∧ Instr.wellFormed (.put 4) = false ∧ Instr.wellFormed (.push 9) = false ∧
    Instr.wellFormed (.pop 4) = false := by decide
theorem test_wf_two_registers : Instr.wellFormed (.swap 0 4) = false ∧ Instr.wellFormed (.swap 7 0) = false ∧
    Instr.wellFormed (.cmp 4 4) = true ∧ Instr.wellFormed (.cmp 5 0) = false ∧ Instr.wellFormed (.cmp 0 (-1)) = false := by
  decide

/-! ### Decoding of written-out words (30_encoding.md R91, R95) -/

theorem test_decode_z : decode [0x00000000] = .ok (.nop, []) ∧ decode [0x00000001] = .ok (.halt, []) ∧
    decode [0x00000019] = .ok (.ret, []) := by decide
theorem test_decode_arithmetic : decode [0x00000002, 1] = .ok (.add 1, []) ∧ decode [0x00000003, 2] = .ok (.sub 2, []) ∧
    decode [0x00000004, 0] = .ok (.mul 0, []) ∧ decode [0x00000005, 7] = .ok (.div 7, []) ∧
    decode [0x00000006, 3] = .ok (.inc 3, []) ∧ decode [0x00000007, 2] = .ok (.dec 2, []) := by decide
theorem test_decode_moves : decode [0x00000009, 0, 10] = .ok (.mov 0 10, []) ∧
    decode [0x00000010, 0, 3] = .ok (.swap 0 3, []) := by decide
theorem test_decode_stack : decode [0x0000000A, 1, 0xFFFFFFFF] = .ok (.load 1 (-1), []) ∧
    decode [0x0000000B, 3, 0] = .ok (.store 3 0, []) ∧ decode [0x00000011, 9] = .ok (.push 9, []) ∧
    decode [0x00000012, 2] = .ok (.pop 2, []) := by decide
theorem test_decode_io : decode [0x0000000C, 1] = .ok (.in_ 1, []) ∧ decode [0x0000000D, 0] = .ok (.get 0, []) ∧
    decode [0x0000000E, 0] = .ok (.out 0, []) ∧ decode [0x0000000F, 4] = .ok (.put 4, []) := by decide
theorem test_decode_transfers : decode [0x00000008, 6] = .ok (.loop 6, []) ∧ decode [0x00000014, 14] = .ok (.jmp 14, []) ∧
    decode [0x00000015, 40] = .ok (.jz 40, []) ∧ decode [0x00000016, 3] = .ok (.jnz 3, []) ∧
    decode [0x00000017, 14] = .ok (.jgt 14, []) ∧ decode [0x00000013, 4, 0] = .ok (.cmp 4 0, []) ∧
    decode [0x00000018, 8] = .ok (.call 8, []) := by decide
theorem test_decode_unknown : decode [26] = .error (.unrecognisedOpcode 26) ∧ decode [minWord] =
    .error (.unrecognisedOpcode minWord) ∧ decode [0x00000100] = .error (.unrecognisedOpcode 256) := by decide
theorem test_decode_table_word : decodeTableWord 96 0x0000000A_00000003_00000009 = some (.mov 3 10) ∧
    decodeTableWord 32 26 = none := by decide
theorem test_with_fetch_word : step1 (fun t => (t.regD, t.pc))
    (State.reset.withFetchWord 96 0x0000000A_00000003_00000009) = some (10, 3) := by decide

/-! ### The cycle -/

/-- Z1. -/
theorem test_nop : step1 (fun t => (t.pc, t.status)) (prog 7 [0] State.reset) = some (8, .running) := by decide
/-- Z2. -/
theorem test_halt : step1 (fun t => (t.pc, t.status, stepReturn t)) (prog 0 [1] State.reset) = some (1, .halted, 0) := by
  decide
/-- Z3c. -/
theorem test_unknown_opcode : step1 (fun t => (t.pc, t.status)) (prog 0 [256] State.reset) =
    some (0, .faulted .illegalInstruction) := by decide
/-- Z5, Z5b. -/
theorem test_fetch_bound : step1 (fun t => (t.pc, t.status)) (prog 1007 [] State.reset) =
      some (1007, .faulted .invalidAddress) ∧
    step1 (fun t => (t.pc, t.status)) { State.reset with pc := -1 } = some (-1, .faulted .invalidAddress) := by decide
/-- Z8, Z9. -/
theorem test_run_counts : (match run 10 (prog 0 [0, 0, 26] State.reset) with | .next (t, r) => some (t.pc, r) | _ => none) =
    some (2, -3) := by decide

/-! ### Arithmetic and moves -/

/-- A3. -/
theorem test_add_wraps : step1 (fun t => (t.regA, t.result, t.pc)) (prog 0 [2, 1] (ab maxWord 1)) =
    some (minWord, minWord, 2) := by decide
/-- S7, A24. -/
theorem test_add : step1 (fun t => (t.regA, t.regB)) (prog 0 [2, 1] (ab 3 4)) = some (7, 4) ∧
    step1 (fun t => (t.regA, t.pc, t.status)) (prog 1006 [2] (ab 3 4)) = some (3, 1006, .faulted .invalidAddress) := by
  decide
/-- A8. -/
theorem test_sub_wraps : step1 (fun t => (t.regA, t.result)) (prog 0 [3, 1] (ab 0 minWord)) = some (minWord, minWord) := by
  decide
/-- A5. -/
theorem test_sub : step1 (fun t => t.regA) (prog 0 [3, 2] { ab 10 0 with regC := 3 }) = some 7 := by decide
/-- A11. -/
theorem test_mul_wraps : step1 (fun t => t.regA) (prog 0 [4, 0] (ab 46341 0)) = some (-2147479015) := by decide
/-- A9. -/
theorem test_mul : step1 (fun t => (t.regA, t.regB)) (prog 0 [4, 1] (ab (-6) 7)) = some (-42, 7) := by decide
/-- A14b, A14h. -/
theorem test_div : step1 (fun t => t.regA) (prog 0 [5, 1] (ab (-7) 2)) = some (-3) ∧
    step1 (fun t => t.regA) (prog 0 [5, 1] (ab minWord (-1))) = some minWord := by decide
/-- A15, A23. -/
theorem test_div_faults : step1 (fun t => (t.regA, t.result, t.pc, t.status)) (prog 0 [5, 1] { ab 9 0 with result := 5 }) =
      some (9, 5, 0, .faulted .divByZero) ∧
    step1 (fun t => t.status) (prog 0 [5, 7] (ab 1 0)) = some (.faulted .illegalOperand) := by decide
/-- A17, A21. -/
theorem test_inc : step1 (fun t => (t.regD, t.result)) (prog 0 [6, 3] { State.reset with regD := 41 }) = some (42, 42) ∧
    step1 (fun t => (t.regB, t.result)) (prog 0 [6, 1] { State.reset with extJmp := false }) = some (1, 0) := by decide
/-- A20, A19. -/
theorem test_dec : step1 (fun t => t.regB) (prog 0 [7, 1] (ab 0 minWord)) = some maxWord ∧
    step1 (fun t => (t.regC, t.result)) (prog 0 [7, 2] { State.reset with regC := 1, result := 9 }) = some (0, 0) := by
  decide
/-- M5, M9. -/
theorem test_mov : step1 (fun t => (t.regA, t.result, t.pc)) (prog 0 [9, 0, 5] { ab 7 0 with result := 3 }) =
      some (5, 3, 3) ∧
    step1 (fun t => (t.pc, t.status)) (prog 1005 [9, 9] State.reset) = some (1005, .faulted .invalidAddress) := by decide
/-- M6, M8a. -/
theorem test_swap : step1 (fun t => (t.regA, t.regD, t.pc)) (prog 0 [16, 0, 3] { ab 1 0 with regD := 9 }) =
      some (9, 1, 3) ∧
    step1 (fun t => (t.regA, t.status)) (prog 0 [16, 0, 4] (ab 1 2)) = some (1, .faulted .illegalOperand) := by decide

/-! ### Stack -/

/-- K7, K12. -/
theorem test_load : step1 (fun t => (t.regB, t.sn, t.pc)) (prog 0 [10, 1, 0] (stack [5, 7] { State.reset with regD := 1 })) =
      some (5, 2, 3) ∧
    step1 (fun t => t.regD) (prog 0 [10, 3, 0] (stack [5, 7] { State.reset with regD := 1 })) = some 5 := by decide
/-- K13, K9. -/
theorem test_load_faults : step1 (fun t => t.status) (prog 0 [10, 0, maxWord] (stack [5, 7]
      { State.reset with regD := maxWord })) = some (.faulted .invalidStackOperation) ∧
    step1 (fun t => t.status) (prog 0 [10, 1, 2] (stack [5, 7] State.reset)) = some (.faulted .invalidStackOperation) := by
  decide
/-- K15. -/
theorem test_store : step1 (fun t => (t.memory.read 1023, t.memory.read 1022, t.sn)) (prog 0 [11, 0, 1] (stack [5, 7] (ab 9 0))) =
    some (9, 7, 2) := by decide
/-- K16. -/
theorem test_store_faults : step1 (fun t => t.status) (prog 0 [11, 0, -1] (stack [5, 7] (ab 9 0))) =
    some (.faulted .invalidStackOperation) := by decide
/-- K3. -/
theorem test_push_last_slot : step1 (fun t => (t.memory.read 1008, t.memory.read 1007, t.sn))
    (prog 0 [17, 0] { ab 5 0 with sn := 15 }) = some (5, 0, 16) := by decide
/-- K2, K6. -/
theorem test_push_faults : step1 (fun t => (t.sn, t.status)) (prog 0 [17, 0] { ab 5 0 with sn := 16 }) =
      some (16, .faulted .invalidStackOperation) ∧
    step1 (fun t => t.status) (prog 0 [17, 9] { ab 5 0 with sn := 16 }) = some (.faulted .illegalOperand) := by decide
/-- K4. -/
theorem test_pop : step1 (fun t => (t.regC, t.sn, t.memory.read 1022)) (prog 0 [18, 2] (stack [5, 7] State.reset)) =
    some (7, 1, 7) := by decide
/-- K5. -/
theorem test_pop_faults : step1 (fun t => (t.sn, t.status)) (prog 0 [18, 0] State.reset) =
    some (0, .faulted .invalidStackOperation) := by decide

/-! ### Input and output -/

/-- I1, the first step: the text is two spaces, a minus sign, 42, a space, 7. -/
theorem test_in : step1 (fun t => (t.regB, t.regC, t.input)) (prog 0 [12, 1]
    { State.reset with regC := 9, input := .stream [0x20, 0x20, 0x2D, 0x34, 0x32, 0x20, 0x37] }) =
    some (-42, 9, .stream [0x20, 0x37]) := by decide
/-- I2, and I4b with the text 2147483648. -/
theorem test_in_end_and_range : step1 (fun t => (t.regC, t.pc)) (prog 0 [12, 2] { State.reset with regC := 5 }) =
      some (-1, 2) ∧
    step1 (fun t => (t.regA, t.pc, t.status)) (prog 0 [12, 0] { State.reset with
      input := .stream [0x32, 0x31, 0x34, 0x37, 0x34, 0x38, 0x33, 0x36, 0x34, 0x38] }) =
      some (0, 0, .faulted .ioError) := by decide
/-- I3: the text is abc. What was consumed is free. -/
theorem test_in_malformed : step1 (fun t => (t.regA, t.pc, t.status)) (prog 0 [12, 0]
    { ab 4 0 with input := .stream [0x61, 0x62, 0x63] }) = some (4, 0, .faulted .ioError) := by decide
/-- I9. -/
theorem test_get : step1 (fun t => (t.regA, t.input)) (prog 0 [13, 0] { State.reset with input := .stream [0xFF] }) =
    some (255, .stream []) := by decide
/-- I8, the third step. -/
theorem test_get_end : step1 (fun t => (t.regA, t.regC, t.status)) (prog 0 [13, 0] { ab 105 0 with regC := 4 }) =
    some (-1, 0, .running) := by decide
/-- I13b, I12. -/
theorem test_out : step1 (fun t => t.output) (prog 0 [14, 0] (ab minWord 0)) =
      some [0x2D, 0x32, 0x31, 0x34, 0x37, 0x34, 0x38, 0x33, 0x36, 0x34, 0x38] ∧
    step1 (fun t => t.output) (prog 0 [14, 0] (ab (-15) 0)) = some [0x2D, 0x31, 0x35] := by decide
/-- I14c, I14d. -/
theorem test_put : step1 (fun t => t.output) (prog 0 [15, 0] (ab 255 0)) = some [0xFF] ∧
    step1 (fun t => (t.output, t.pc, t.status)) (prog 0 [15, 0] (ab 256 0)) = some ([], 0, .faulted .illegalOperand) := by
  decide

/-! ### Transfers of control -/

/-- L3, L4. -/
theorem test_loop : step1 (fun t => (t.pc, t.regC)) (prog 10 [8, 6] { State.reset with regC := -1 }) = some (6, -1) ∧
    step1 (fun t => (t.pc, t.status)) (prog 1006 [8] State.reset) = some (1008, .running) := by decide
/-- J4, J6. -/
theorem test_cmp : step1 (fun t => (t.result, t.regA, t.pc)) (prog 0 [19, 4, 0] { ab 4 0 with result := 10 }) =
      some (6, 4, 3) ∧
    step1 (fun t => t.result) (prog 0 [19, 0, 1] (ab minWord 1)) = some maxWord := by decide
/-- J9, J13. -/
theorem test_jmp : step1 (fun t => t.pc) (prog 9 [20, 14] State.reset) = some 14 ∧
    step1 (fun t => (t.pc, t.status)) (prog 1006 [20] State.reset) = some (1006, .faulted .invalidAddress) := by decide
/-- J10, J11. -/
theorem test_jz : step1 (fun t => t.pc) (prog 0 [21, 14] State.reset) = some 14 ∧
    step1 (fun t => (t.pc, t.status)) (prog 1006 [21] { State.reset with result := 1 }) = some (1008, .running) := by decide
/-- The table under J9, result = -6 and 0. -/
theorem test_jnz : step1 (fun t => t.pc) (prog 9 [22, 14] { State.reset with result := -6 }) = some 14 ∧
    step1 (fun t => t.pc) (prog 9 [22, 14] State.reset) = some 11 := by decide
/-- The table under J9, result = m and 1. -/
theorem test_jgt : step1 (fun t => t.pc) (prog 9 [23, 14] { State.reset with result := minWord }) = some 11 ∧
    step1 (fun t => t.pc) (prog 9 [23, 14] { State.reset with result := 1 }) = some 14 := by decide
/-- J8, C7b. -/
theorem test_extensions_off : step1 (fun t => (t.pc, t.status)) (prog 0 [19, 0, 1] { State.reset with extJmp := false }) =
      some (0, .faulted .illegalInstruction) ∧
    step1 (fun t => (t.sn, t.status)) (prog 0 [25] (stack [5] { State.reset with extCall := false })) =
      some (1, .faulted .illegalInstruction) := by decide
/-- C1. -/
theorem test_call : step1 (fun t => (t.memory.read 1023, t.sn, t.pc)) (prog 3 [24, 8] State.reset) = some (5, 1, 8) := by
  decide
/-- C4, C5. -/
theorem test_call_faults : step1 (fun t => t.status) (prog 0 [24, 8] { State.reset with sn := 16 }) =
      some (.faulted .invalidStackOperation) ∧
    step1 (fun t => t.status) (prog 1006 [24] { State.reset with sn := 16 }) = some (.faulted .invalidAddress) := by decide
/-- C6. -/
theorem test_ret : step1 (fun t => (t.pc, t.sn, t.status, t.memory.read 1023)) (prog 0 [25] (stack [-3] State.reset)) =
    some (-3, 0, .running, -3) := by decide
/-- C3. -/
theorem test_ret_faults : step1 (fun t => (t.pc, t.status)) (prog 0 [25] State.reset) =
    some (0, .faulted .invalidStackOperation) := by decide

/-! ### The host's operations -/

/-- The reference configuration of 95_test_vectors.md is the reset state. -/
theorem test_create_reference : (match create [] 1024 1023 16 true true (.stream []) [] with
    | .next s => some s | _ => none) = some State.reset := by decide
/-- S3, on a state with a stack, a program and a terminal status. -/
theorem test_reset : (match resetCore (prog 0 [9] (stack [5, 6] { ab 5 6 with status := .halted, result := 6 })) with
    | .next t => some t | _ => none) = some { State.reset with memory := [(0, 9)] } := by decide
/-- S1, S2. -/
theorem test_loader : packWords [0x12, 0x34, 0x56, 0x78, 0, 0, 0, 1] = some [305419896, 1] ∧
    load [0, 0, 0] 16 1024 = none ∧ load [] 0 1024 = none ∧ load [] 16 1024 = some ⟨[], 1023, 16⟩ := by decide

/-! ### Witnesses: concrete states and operands that meet the hypotheses of each obligation, clause by clause -/

/-- The configuration bounds, checked on a concrete state. -/
theorem config_of (s : State) (h : s.memWords % 1024 = 0 ∧ 1024 ≤ s.memWords ∧ s.memWords ≤ 2147482624 ∧
    0 ≤ s.capacity.toInt ∧ s.capacity.toInt ≤ s.stackBottom.toInt ∧ s.stackBottom.toInt < s.memWords ∧
    s.stackLimit.toInt = s.stackBottom.toInt - s.capacity.toInt) : s.ConfigOk :=
  ⟨h.1, h.2.1, h.2.2.1, h.2.2.2.1, h.2.2.2.2.1, h.2.2.2.2.2.1, h.2.2.2.2.2.2⟩

/-- The reference configuration meets the bounds, whatever the registers and the memory hold. -/
theorem reference_config (s : State) (h : s.memWords = 1024 ∧ s.capacity = 16 ∧ s.stackBottom = 1023 ∧ s.stackLimit = 1007) :
    s.ConfigOk := by
  obtain ⟨h1, h2, h3, h4⟩ := h
  exact config_of s (by rw [h1, h2, h3, h4]; decide)

/-- The invariant, checked on a concrete state of the reference configuration. -/
theorem inv_of (s : State) (hc : s.memWords = 1024 ∧ s.capacity = 16 ∧ s.stackBottom = 1023 ∧ s.stackLimit = 1007)
    (h : s.memory.wf ∧ s.memory.within s.memWords ∧ 0 ≤ s.sn.toInt ∧ s.sn.toInt ≤ s.capacity.toInt) : s.Inv :=
  ⟨reference_config s hc, h.1, h.2.1, h.2.2.1, h.2.2.2⟩

/-- The reference core at pc `p` with `n` words on its stack. -/
def at_ (p n : Word) : State := { State.reset with pc := p, sn := n }

theorem at_config (p n : Word) : (at_ p n).ConfigOk := reference_config _ ⟨rfl, rfl, rfl, rfl⟩

theorem reset_inv : State.reset.Inv := inv_of _ ⟨rfl, rfl, rfl, rfl⟩ (by decide)

theorem reset_fresh : State.reset.Fresh :=
  ⟨reset_inv, rfl, rfl, rfl, rfl, rfl, rfl, rfl, rfl, rfl, fun _ _ _ => rfl⟩

/-- The bytes a script or stream core holds for `in` and `get`. -/
def reading (i : InputSource) : State := { State.reset with input := i }

theorem witness_StepRunsTheDecodedInstruction : State.reset.ConfigOk ∧ State.reset.live = true ∧
    State.reset.status = .running ∧ State.reset.CanFetch 0 ∧ decode State.reset.shownWords = .ok (.nop, [0, 0]) :=
  ⟨at_config 0 0, by decide⟩

/-- At the last fetchable address the operand word decides nothing. -/
theorem witness_StepRunsTheInstructionInMemory : (prog 1006 [2] State.reset).ConfigOk ∧
    (prog 1006 [2] State.reset).live = true ∧ (prog 1006 [2] State.reset).status = .running ∧
    (prog 1006 [2] State.reset).CanFetch 0 ∧ ¬(prog 1006 [2] State.reset).CanFetch 1 ∧
    ∀ (k : Nat) (w : Word), (encode (.add 5))[k]? = some w → (prog 1006 [2] State.reset).CanFetch k →
      (prog 1006 [2] State.reset).memory.read ((prog 1006 [2] State.reset).pc.toInt + k).toNat = w := by
  refine ⟨reference_config _ ⟨rfl, rfl, rfl, rfl⟩, rfl, rfl, by decide, by decide, fun k w hw hk => ?_⟩
  match k with
  | 0 => cases hw; decide
  | 1 => exact absurd hk (by decide)
  | k + 2 => cases hw

theorem witness_StepOfAStoppedCoreDoesNothing : State.reset.live = true ∧
    ({ State.reset with status := .halted } : State).status ≠ .running ∧
    ({ State.reset with status := .faulted .ioError } : State).status ≠ .running ∧
    ({ State.reset with live := false } : State).live = false := by decide

/-- Both ends of the fetch bound, and the core with nothing to fetch. -/
theorem witness_UnfetchablePcFaults : ¬(at_ 1007 0).CanFetch 0 ∧ (at_ 1006 0).CanFetch 0 ∧ ¬(at_ (-1) 0).CanFetch 0 ∧
    (at_ 1007 0).live = true ∧ (at_ 1007 0).status = .running ∧
    ({ State.reset with capacity := 1023, stackLimit := 0 } : State).ConfigOk ∧
    ({ State.reset with capacity := 1023, stackLimit := 0 } : State).capacity = State.reset.stackBottom :=
  ⟨by decide, by decide, by decide, rfl, rfl, config_of _ (by decide), rfl⟩

/-- The reference core with both extensions off. -/
def bare : State := { State.reset with extJmp := false, extCall := false }

/-- The opcode words on either side of each range, on a core with both extensions off. -/
theorem witness_UnrecognisedOpcodeFaults : (∀ op, (prog 0 [op] bare).ConfigOk) ∧ bare.live = true ∧ bare.status = .running ∧
    (([-1, 26, 19, 23, 24, 25] : List Word).all fun op =>
      decide ((prog 0 [op] bare).CanFetch 0 ∧ (prog 0 [op] bare).memory.read (prog 0 [op] bare).pc.toInt.toNat = op)) = true ∧
    (-1 : Word).toInt < 0 ∧ 25 < (26 : Word).toInt ∧ 19 ≤ (19 : Word).toInt ∧ (23 : Word).toInt ≤ 23 ∧
    24 ≤ (24 : Word).toInt ∧ (25 : Word).toInt ≤ 25 ∧ bare.extJmp = false ∧ bare.extCall = false :=
  ⟨fun _ => reference_config _ ⟨rfl, rfl, rfl, rfl⟩, by decide⟩

theorem witness_DisabledExtensionFaults : Instr.needs (.cmp 0 0) = .extJmp ∧ Instr.needs .ret = .extCall ∧
    bare.extJmp = false ∧ bare.extCall = false := by decide

theorem witness_UnfetchableOperandFaultsFirst : (at_ 1006 0).ConfigOk ∧ (at_ 1005 0).ConfigOk ∧
    State.reset.extJmp = true ∧ State.reset.extCall = true ∧ 1 < Instr.lengthWords (.add 4) ∧
    ¬(at_ 1006 0).CanFetch 1 ∧ 2 < Instr.lengthWords (.mov 9 10) ∧ (at_ 1005 0).CanFetch 1 ∧ ¬(at_ 1005 0).CanFetch 2 ∧
    ∀ t : Word, (Instr.mov 9 10 ≠ .loop t ∧ Instr.mov 9 10 ≠ .jz t ∧ Instr.mov 9 10 ≠ .jnz t ∧ Instr.mov 9 10 ≠ .jgt t) ∧
      (Instr.add 4 ≠ .loop t ∧ Instr.add 4 ≠ .jz t ∧ Instr.add 4 ≠ .jnz t ∧ Instr.add 4 ≠ .jgt t) :=
  ⟨at_config 1006 0, at_config 1005 0, rfl, rfl, by decide, by decide, by decide, by decide, by decide, by simp⟩

theorem witness_RegisterOperandOutOfRangeFaults : (at_ 0 16).ConfigOk ∧ (at_ 0 16).extJmp = true ∧
    (at_ 0 16).extCall = true ∧ (at_ 0 16).CanFetch 1 ∧ (at_ 0 16).CanFetch 2 ∧
    Instr.wellFormed (.push 4) = false ∧ Instr.wellFormed (.cmp 4 5) = false ∧ Instr.wellFormed (.swap (-1) 0) = false :=
  ⟨at_config 0 16, by decide⟩

theorem witness_NopAdvancesByOne : (at_ 1006 0).ConfigOk ∧ (at_ 1006 0).live = true ∧ (at_ 1006 0).status = .running ∧
    (at_ 1006 0).CanFetch 0 ∧ (at_ 1006 0).memory.read (at_ 1006 0).pc.toInt.toNat = 0 :=
  ⟨at_config 1006 0, by decide⟩

theorem witness_HaltStopsTheCore : (prog 1006 [1] State.reset).ConfigOk ∧ (prog 1006 [1] State.reset).live = true ∧
    (prog 1006 [1] State.reset).status = .running ∧ (prog 1006 [1] State.reset).CanFetch 0 ∧
    (prog 1006 [1] State.reset).memory.read (prog 1006 [1] State.reset).pc.toInt.toNat = 1 ∧ (1 : Int) ≤ 1 :=
  ⟨reference_config _ ⟨rfl, rfl, rfl, rfl⟩, by decide⟩

/-- The last place a two-word instruction can stand; it serves every statement whose hypotheses are ConfigOk and CanFetch 1. -/
theorem witness_AddSubMulWrapTheExactResult : (at_ 1005 0).ConfigOk ∧ (at_ 1005 0).CanFetch 1 :=
  ⟨at_config 1005 0, by decide⟩

theorem witness_DivTruncatesTowardZero : (ab 9 0).ConfigOk ∧ (ab 9 0).CanFetch 1 ∧ ((ab 9 0).get .b).toInt = 0 ∧
    ((ab minWord (-1)).get .b).toInt ≠ 0 :=
  ⟨reference_config _ ⟨rfl, rfl, rfl, rfl⟩, by decide⟩

theorem witness_IncDecWriteAndMirror : (at_ 1005 0).ConfigOk ∧ (at_ 1005 0).CanFetch 1 := ⟨at_config 1005 0, by decide⟩

/-- The last place a three-word instruction can stand. -/
theorem witness_MovStoresTheImmediate : (at_ 1004 0).ConfigOk ∧ (at_ 1004 0).CanFetch 1 ∧ (at_ 1004 0).CanFetch 2 :=
  ⟨at_config 1004 0, by decide⟩

theorem witness_SwapExchangesTwoRegisters : (at_ 1004 0).ConfigOk ∧ (at_ 1004 0).CanFetch 1 ∧ (at_ 1004 0).CanFetch 2 :=
  ⟨at_config 1004 0, by decide⟩

/-- Offsets 0 and sn - 1 are live, -1 and sn are not. -/
theorem witness_LoadReadsTheIndexedSlot : (stack [5, 7] State.reset).Inv ∧ (stack [5, 7] State.reset).CanFetch 1 ∧
    (stack [5, 7] State.reset).CanFetch 2 ∧
    (([0, 1] : List Word).all fun imm => decide (0 ≤ imm.toInt + (stack [5, 7] State.reset).regD.toInt ∧
      imm.toInt + (stack [5, 7] State.reset).regD.toInt < (stack [5, 7] State.reset).sn.toInt)) = true :=
  ⟨inv_of _ ⟨rfl, rfl, rfl, rfl⟩ (by decide), by decide, by decide, by decide⟩

theorem witness_StoreWritesTheIndexedSlot : (stack [5, 7] State.reset).Inv ∧
    (stack [5, 7] State.reset).CanFetch 1 ∧ (stack [5, 7] State.reset).CanFetch 2 ∧
    (([-1, 2] : List Word).all fun imm => decide (¬(0 ≤ imm.toInt + (stack [5, 7] State.reset).regD.toInt ∧
      imm.toInt + (stack [5, 7] State.reset).regD.toInt < (stack [5, 7] State.reset).sn.toInt))) = true :=
  ⟨inv_of _ ⟨rfl, rfl, rfl, rfl⟩ (by decide), by decide, by decide, by decide⟩

theorem at_inv (p n : Word) (h : 0 ≤ n.toInt ∧ n.toInt ≤ 16) : (at_ p n).Inv :=
  inv_of _ ⟨rfl, rfl, rfl, rfl⟩ ⟨show Memory.wf [] by decide, show Memory.within [] 1024 by decide, h⟩

theorem witness_PushWritesTheNextFreeSlot : (at_ 0 15).Inv ∧ (at_ 0 16).Inv ∧ (at_ 0 15).CanFetch 1 ∧
    (at_ 0 15).sn.toInt < (at_ 0 15).capacity.toInt ∧ (at_ 0 16).capacity.toInt ≤ (at_ 0 16).sn.toInt :=
  ⟨at_inv 0 15 (by decide), at_inv 0 16 (by decide), by decide⟩

theorem witness_PopReadsTheTopSlot : (at_ 0 1).Inv ∧ (at_ 0 0).Inv ∧ (at_ 0 1).CanFetch 1 ∧ 0 < (at_ 0 1).sn.toInt ∧
    (at_ 0 0).sn.toInt ≤ 0 :=
  ⟨at_inv 0 1 (by decide), at_inv 0 0 (by decide), by decide⟩

theorem witness_PushThenPopCopiesARegister : (at_ 0 15).Inv ∧ (at_ 0 15).CanFetch 1 ∧
    (at_ 0 15).sn.toInt < (at_ 0 15).capacity.toInt ∧
    ∃ t, exec (.push 0) (at_ 0 15) = .next t ∧ ({ t with pc := 2 } : State).CanFetch 1 :=
  ⟨at_inv 0 15 (by decide), by decide, by decide, _, rfl, by decide⟩

/-- The four ends of the range of `in`, Malformed, the end of input, and no answer. -/
theorem witness_InFollowsTheSource : (∀ i, (reading i).ConfigOk ∧ (reading i).CanFetch 1) ∧
    (∀ z ∈ ([-2147483649, -2147483648, 2147483647, 2147483648] : List Int),
      (reading (.script [.int z] [])).input.readInt = some (.int z, .script [] [])) ∧
    (reading (.script [.malformed] [])).input.readInt = some (.malformed, .script [] []) ∧
    (reading (.stream [])).input.readInt = some (.eof, .stream []) ∧ (reading (.script [] [])).input.readInt = none :=
  ⟨fun _ => ⟨reference_config _ ⟨rfl, rfl, rfl, rfl⟩, show State.reset.CanFetch 1 by decide⟩, by decide, by decide, by decide, by decide⟩

theorem witness_GetFollowsTheSource : (∀ i, (reading i).ConfigOk ∧ (reading i).CanFetch 1) ∧
    (reading (.stream [0xFF])).input.readByte = some (.byte 0xFF, .stream []) ∧
    (reading (.stream [])).input.readByte = some (.eof, .stream []) ∧ (reading (.script [] [])).input.readByte = none :=
  ⟨fun _ => ⟨reference_config _ ⟨rfl, rfl, rfl, rfl⟩, show State.reset.CanFetch 1 by decide⟩, by decide⟩

theorem witness_OutEmitsTheDecimalText : (at_ 1005 0).ConfigOk ∧ (at_ 1005 0).CanFetch 1 := ⟨at_config 1005 0, by decide⟩

theorem witness_PutEmitsOneByte : (ab 0 255).ConfigOk ∧ (ab 0 255).CanFetch 1 ∧
    (([0, 255] : List Word).all fun v => decide (0 ≤ v.toInt ∧ v.toInt ≤ 255)) = true ∧
    (([-1, 256] : List Word).all fun v => decide (¬(0 ≤ v.toInt ∧ v.toInt ≤ 255))) = true :=
  ⟨reference_config _ ⟨rfl, rfl, rfl, rfl⟩, by decide, by decide, by decide⟩

/-- A minus sign, 42 and a letter behind all the white space there is; a sign alone; and the bytes on either side of the digits.
The lists are checked byte by byte. -/
theorem witness_ReferenceDeviceReadsIntegers :
    (∀ b ∈ ([0x20#8, 0x09#8, 0x0D#8] : List Byte), b.toNat = 0x20 ∨ (0x09 ≤ b.toNat ∧ b.toNat ≤ 0x0D)) ∧
    (∀ d ∈ ([0x30#8, 0x39#8, 0x34#8, 0x32#8] : List Byte), 0x30 ≤ d.toNat ∧ d.toNat ≤ 0x39) ∧
    (∀ b ∈ ([0x61#8] : List Byte).head?, ¬(0x30 ≤ b.toNat ∧ b.toNat ≤ 0x39)) ∧
    (InputSource.stream [0x20, 0x09, 0x0D, 0x2D, 0x34, 0x32, 0x61]).readInt = some (.int (-42), .stream [0x61]) ∧
    (∃ left, (InputSource.stream [0x20, 0x2D]).readInt = some (.malformed, .stream left)) ∧
    (∀ b ∈ ([0x2F#8, 0x3A#8] : List Byte), ¬(b.toNat = 0x20 ∨ (0x09 ≤ b.toNat ∧ b.toNat ≤ 0x0D)) ∧ b ≠ 0x2B#8 ∧
      b ≠ 0x2D#8 ∧ ¬(0x30 ≤ b.toNat ∧ b.toNat ≤ 0x39)) :=
  ⟨by simp, by simp, by simp, by decide, ⟨_, rfl⟩, by simp⟩

/-- A stream of white space is at its end for ReadInt, an empty one for ReadByte, and a script where it says so. -/
theorem witness_InputSourceAnswersAndEnds : (InputSource.stream [0x20]).readInt = some (.eof, .stream []) ∧
    (InputSource.stream []).readByte = some (.eof, .stream []) ∧
    (InputSource.script [.eof] [.byte 7]).readInt = some (.eof, .stream []) ∧ IntAnswer.malformed ≠ .eof ∧
    IntAnswer.int 5 ≠ .eof := by decide

theorem witness_LoopJumpsWhileCIsNotZero : (∀ p c, ({ at_ p 0 with regC := c } : State).ConfigOk) ∧ (at_ 0 0).regC = 0 ∧ ({ at_ 1005 0 with regC := -1 } : State).regC ≠ 0 ∧
    ({ at_ 1005 0 with regC := -1 } : State).CanFetch 1 ∧ ¬({ at_ 1006 0 with regC := -1 } : State).CanFetch 1 :=
  ⟨fun _ _ => reference_config _ ⟨rfl, rfl, rfl, rfl⟩, by decide⟩

theorem witness_CmpWritesTheDifference : (at_ 1004 0).ConfigOk ∧ (at_ 1004 0).extJmp = true ∧ (at_ 1004 0).CanFetch 1 ∧
    (at_ 1004 0).CanFetch 2 :=
  ⟨at_config 1004 0, by decide⟩

theorem witness_JumpsFollowTheirConditions : (at_ 1005 0).ConfigOk ∧ (at_ 1006 0).ConfigOk ∧ (at_ 1005 0).extJmp = true ∧ (at_ 1005 0).CanFetch 1 ∧
    ¬(at_ 1006 0).CanFetch 1 ∧ (at_ 1005 0).result.toInt = 0 ∧
    0 < ({ at_ 1005 0 with result := 1 } : State).result.toInt ∧
    ({ at_ 1005 0 with result := -1 } : State).result.toInt ≤ 0 ∧
    ({ at_ 1005 0 with result := -1 } : State).result.toInt ≠ 0 :=
  ⟨at_config 1005 0, at_config 1006 0, by decide⟩

theorem witness_CallPushesTheReturnAddress : (at_ 0 15).Inv ∧ (at_ 0 16).Inv ∧ (at_ 0 15).extCall = true ∧
    (at_ 0 15).CanFetch 1 ∧ (at_ 0 15).sn.toInt < (at_ 0 15).capacity.toInt ∧
    (at_ 0 16).capacity.toInt ≤ (at_ 0 16).sn.toInt :=
  ⟨at_inv 0 15 (by decide), at_inv 0 16 (by decide), by decide⟩

theorem witness_RetPopsThePc : (at_ 0 1).Inv ∧ (at_ 0 0).Inv ∧ (at_ 0 1).extCall = true ∧ 0 < (at_ 0 1).sn.toInt ∧
    (at_ 0 0).sn.toInt ≤ 0 :=
  ⟨at_inv 0 1 (by decide), at_inv 0 0 (by decide), by decide⟩

theorem witness_CallThenRetReturns : (at_ 0 15).Inv ∧ (at_ 0 15).extCall = true ∧ (at_ 0 15).CanFetch 1 ∧
    (at_ 0 15).sn.toInt < (at_ 0 15).capacity.toInt :=
  ⟨at_inv 0 15 (by decide), by decide⟩

theorem witness_PcAfterEachInstruction : (∃ t, exec (.ret) (at_ 0 1) = .next t ∧ ∀ c, t.status ≠ .faulted c) ∧
    (∃ t, exec (.add 4) (at_ 0 1) = .next t ∧ ∃ c, t.status = .faulted c) :=
  ⟨⟨_, rfl, fun _ h => by cases h⟩, ⟨_, rfl, _, rfl⟩⟩

theorem witness_GeneralRegisterWriters : ∃ t, exec (.in_ 1) (at_ 0 0) = .next t ∧ t.get .b ≠ (at_ 0 0).get .b :=
  ⟨_, rfl, by decide⟩

theorem witness_ResultWriters : ∃ t, exec (.inc 3) (at_ 0 0) = .next t ∧ t.result ≠ (at_ 0 0).result :=
  ⟨_, rfl, by decide⟩

theorem witness_MemoryWriters : ∃ t, exec (.call 8) (at_ 0 15) = .next t ∧ t.memory.read 1008 ≠ (at_ 0 15).memory.read 1008 :=
  ⟨_, rfl, by decide⟩

theorem witness_StackSizeWriters : (∃ t, exec (.push 0) (at_ 0 15) = .next t ∧ t.sn ≠ (at_ 0 15).sn) ∧
    (∃ t, exec .ret (at_ 0 1) = .next t ∧ t.sn ≠ (at_ 0 1).sn) :=
  ⟨⟨_, rfl, by decide⟩, ⟨_, rfl, by decide⟩⟩

theorem witness_DeviceUsers : (∃ t, exec (.get 0) (reading (.stream [7])) = .next t ∧ t.input ≠ .stream [7]) ∧
    (∃ t, exec (.out 0) (at_ 0 0) = .next t ∧ t.output ≠ (at_ 0 0).output) :=
  ⟨⟨_, rfl, by decide⟩, ⟨_, rfl, by decide⟩⟩

theorem witness_StatusTransitions :
    (∃ t, step { State.reset with status := .halted } = .next t) ∧ (∃ t, exec .halt State.reset = .next t) ∧
    (∃ t, resetCore { State.reset with status := .halted } = .next t) ∧
    (∃ s, create [] 1024 1023 16 true true (.stream []) [] = .next s) ∧
    (∃ t, step (prog 0 [1] State.reset) = .next t ∧ t.status = .halted) ∧ ∃ t, destroy State.reset = .next t :=
  ⟨⟨_, rfl⟩, ⟨_, rfl⟩, ⟨_, rfl⟩, ⟨_, rfl⟩, ⟨_, rfl, rfl⟩, ⟨_, rfl⟩⟩

theorem witness_FaultingStepWritesOnlyStatus :
    (∃ t, step (prog 0 [12, 0] (reading (.script [.malformed] []))) = .next t ∧ t.status = .faulted .ioError) ∧
    (∃ t, step (prog 0 [26] State.reset) = .next t ∧ t.status = .faulted .illegalInstruction) :=
  ⟨⟨_, rfl, rfl⟩, ⟨_, rfl, rfl⟩⟩

theorem witness_StackAccessesStayInTheSlots : (at_ 0 15).Inv ∧ (∃ a, (at_ 0 15).pushAddress = .ok a) ∧
    (∃ a, (at_ 0 1).popAddress = .ok a) ∧ (∃ a, State.indexedAddress 14 (at_ 0 15) = .ok a) :=
  ⟨at_inv 0 15 (by decide), ⟨_, rfl⟩, ⟨_, rfl⟩, ⟨_, rfl⟩⟩

theorem witness_StepLeavesCodeAndGuardWordAlone : (at_ 0 0).Inv ∧ (∃ t, step (at_ 0 0) = .next t) ∧
    ((1007 : Nat) : Int) ≤ (at_ 0 0).stackLimit.toInt ∧ (at_ 0 0).stackBottom.toInt < (1024 : Nat) :=
  ⟨at_inv 0 0 (by decide), ⟨_, rfl⟩, by decide, by decide⟩

theorem witness_StepAndResetKeepTheConfiguration : (∃ t, step (at_ 0 0) = .next t) ∧ ∃ t, resetCore (at_ 0 0) = .next t :=
  ⟨⟨_, rfl⟩, ⟨_, rfl⟩⟩

theorem witness_StepKeepsTheInvariant : (prog 0 [17, 0] (ab 5 0)).Inv ∧ ∃ t, step (prog 0 [17, 0] (ab 5 0)) = .next t :=
  ⟨inv_of _ ⟨rfl, rfl, rfl, rfl⟩ (by decide), _, rfl⟩

theorem witness_HostOperationsKeepTheInvariant : State.reset.Inv ∧ (∃ t, resetCore State.reset = .next t) ∧
    (∃ t, destroy State.reset = .next t) ∧ ∃ s, create [(0, 1)] 1024 1023 1023 false false (.stream []) [] = .next s :=
  ⟨reset_inv, ⟨_, rfl⟩, ⟨_, rfl⟩, ⟨_, rfl⟩⟩

theorem witness_StepAnswersUnlessInputIsUnanswered : State.reset.Inv ∧ State.reset.live = true ∧
    (prog 0 [12, 0] (reading (.script [] []))).Inv ∧
    (match step (prog 0 [12, 0] (reading (.script [] []))) with | .fault f => some f | _ => none) = some .inputUnanswered :=
  ⟨reset_inv, rfl, inv_of _ ⟨rfl, rfl, rfl, rfl⟩ (by decide), by decide⟩

/-- The smallest region with the deepest stack, and the largest region with none. -/
theorem witness_CreateLeavesTheResetValues : Memory.wf [(1023, 1)] ∧ Memory.within [(1023, 1)] 1024 ∧
    (1024 % 1024 = 0 ∧ 1024 ≤ 1024 ∧ 1023 ≤ 1023 ∧ 1023 ≤ 1024 - 1) ∧
    (2147482624 % 1024 = 0 ∧ 2147482624 ≤ 2 ^ 31 - 1024 ∧ 0 ≤ 2147482623 ∧ 2147482623 ≤ 2147482624 - 1) := by decide

theorem witness_CreateOutsideTheBoundsIsRefused : ¬(1023 % 1024 = 0) ∧ ¬(1024 ≤ 1024 - 1) ∧ ¬(1024 ≤ 0) ∧
    ¬(2147483648 ≤ 2 ^ 31 - 1024) := by decide

theorem witness_ResetClearsTheStackZone : ({ stack [5] State.reset with status := .halted } : State).live = true := by decide

theorem witness_ResetAfterAnyRunEqualsCreate : State.reset.Fresh ∧ ∃ t, Host.Core.run core 3 State.reset = .next t :=
  ⟨reset_fresh, _, rfl⟩

/-- At the last fetchable word: one step, then a step that faults. -/
theorem witness_RunIsAStepAndTheRest : (at_ 1006 0).live = true ∧ (at_ 1006 0).status = .running ∧ (0 : Int) < 2 ∧
    ∃ t u r, step (at_ 1006 0) = .next t ∧ run (2 - 1) t = .next (u, r) ∧ u.status.isFault = true :=
  ⟨rfl, rfl, by decide, _, _, _, rfl, rfl, rfl⟩

/-- One run that meets its budget, one that halts, one that faults, one that does nothing. -/
theorem witness_RunReportsHowItEnded :
    (∃ u, run 2 State.reset = .next (u, 2) ∧ u.status = .running) ∧
    (∃ u, run 7 (prog 0 [1] State.reset) = .next (u, 1) ∧ u.status = .halted) ∧
    (∃ u, run 10 (prog 0 [0, 26] State.reset) = .next (u, -2) ∧ u.status = .faulted .illegalInstruction) ∧
    (∃ u, run 0 State.reset = .next (u, 0)) :=
  ⟨⟨_, rfl, rfl⟩, ⟨_, rfl, rfl⟩, ⟨_, rfl, rfl⟩, ⟨_, rfl⟩⟩

theorem witness_InspectionReportsTheRegisters : State.reset.live = true ∧ State.reset.extJmp = true ∧
    ({ State.reset with extJmp := false } : State).extJmp = false := by decide

theorem witness_LoaderPacksBigEndian : packWords [0, 0, 1, 0] = some [256] ∧ ([256] : List Word)[0]? = some 256 ∧
    ([0, 0, 1, 0] : List Byte)[4 * 0 + 2]? = some 1 ∧ packWords [0, 0, 0] = none := by decide

/-- The tightest load, one word more than fits, and a region of no block. -/
theorem witness_LoadedCoreHoldsTheProgram : load [0, 0, 0, 1] 1024 1024 = none ∧ load [0, 0, 0, 1] 0 0 = none ∧
    load [0, 0, 0, 1] 0 1025 = none ∧ packWords [0, 0, 0, 1] = some [1] ∧
    load [0, 0, 0, 1] 1023 1024 = some ⟨[(0, 1)], 1023, 1023⟩ ∧ 1024 ≤ 2 ^ 31 - 1024 ∧ 1023 < 1024 := by decide

end Sys2Proof.Tests
end

section
/-! ## The invariant and the progress of a step (00_scope.md R6, R9; 10_state.md R33; 20_memory.md R71)

Two facts carry both statements: a state that agrees on configuration, memory and sn meets the invariant as well, and
inside the invariant every slot the address calculator answers lies inside the region. -/

namespace Sys2Proof.Machine

section
variable {s t : State}

/-! ### The stack counter and the slots -/

/-- Below another word, adding 1 does not wrap. -/
theorem toInt_add_one_of_lt {x y : Word} (h : x.toInt < y.toInt) : (x + 1).toInt = x.toInt + 1 := by
  have := BitVec.toInt_lt (x := y)
  have := BitVec.le_toInt x
  rw [BitVec.toInt_add, show (1 : Word).toInt = 1 from rfl]
  exact Int.bmod_eq_of_le (by omega) (by omega)

/-- Above 0, subtracting 1 does not wrap. -/
theorem toInt_sub_one_of_pos {x : Word} (h : 0 < x.toInt) : (x - 1).toInt = x.toInt - 1 := by
  have := BitVec.toInt_lt (x := x)
  rw [BitVec.toInt_sub, show (1 : Word).toInt = 1 from rfl]
  exact Int.bmod_eq_of_le (by omega) (by omega)

/-- Every stack slot lies inside the region, and so does the word below the last one (20_memory.md R71). -/
theorem State.ConfigOk.slot_inside (h : s.ConfigOk) {i : Int} (h0 : 0 ≤ i) (hi : i ≤ s.capacity.toInt) :
    0 ≤ s.stackBottom.toInt - i ∧ s.stackBottom.toInt - i < s.memWords := by
  have := h.capacityFits
  have := h.bottomInside
  omega

/-- The address a pop reads lies inside the region. -/
theorem State.Inv.top_inside (h : s.Inv) (hsn : 0 < s.sn.toInt) :
    0 ≤ s.stackBottom.toInt - s.sn.toInt + 1 ∧ s.stackBottom.toInt - s.sn.toInt + 1 < s.memWords := by
  have := h.snBounded
  have := h.config.slot_inside (i := s.sn.toInt - 1) (by omega) (by omega)
  omega

/-- The address `load` reads and `store` writes lies inside the region. -/
theorem State.Inv.indexedAddress_inside (h : s.Inv) {imm : Word} {a : Int} (ha : s.indexedAddress imm = .ok a) :
    0 ≤ a ∧ a < s.memWords := by
  obtain ⟨⟨h0, hlt⟩, rfl⟩ := State.indexedAddress_ok.mp ha
  have := h.snBounded
  exact h.config.slot_inside (by omega) (by omega)

/-! ### The invariant under each update of the state -/

theorem State.ConfigOk.of_sameConfig (h : s.ConfigOk) (hc : s.SameConfig t) : t.ConfigOk := by
  obtain ⟨hbottom, hcap, hlimit, hwords, -⟩ := hc
  obtain ⟨_, _, _, _, _, _, _⟩ := h
  constructor <;> simpa only [hbottom, hcap, hlimit, hwords]

/-- The invariant speaks of configuration, memory and sn alone. -/
theorem State.Inv.of_frame (h : s.Inv) (hc : s.SameConfig t) (hmem : t.memory = s.memory) (hsn : t.sn = s.sn) :
    t.Inv := by
  have ⟨_, hcap, _, hwords, _⟩ := hc
  exact {
    config := h.config.of_sameConfig hc
    memoryCanonical := hmem ▸ h.memoryCanonical
    memoryInside := by simpa only [hmem, hwords] using h.memoryInside
    snNonneg := hsn ▸ h.snNonneg
    snBounded := by simpa only [hsn, hcap] using h.snBounded }

theorem State.Inv.set (h : s.Inv) (r : GReg) (v : Word) : (s.set r v).Inv :=
  h.of_frame (by simp [State.SameConfig]) (by simp) (by simp)

theorem State.Inv.setResult (h : s.Inv) (v : Word) : (s.setResult v).Inv :=
  h.of_frame (by simp [State.SameConfig]) (by simp) (by simp)

theorem State.Inv.setMirrored (h : s.Inv) (r : GReg) (v : Word) : (s.setMirrored r v).Inv :=
  (h.set r v).setResult v

theorem State.Inv.setEndOfInput (h : s.Inv) (r : GReg) : (s.setEndOfInput r).Inv :=
  (h.set .c 0).set r (-1)

theorem State.Inv.advance (h : s.Inv) (k : Nat) : (s.advance k).Inv :=
  h.of_frame (by simp [State.SameConfig]) (by simp) (by simp)

theorem State.Inv.jumpTo (h : s.Inv) (v : Word) : (s.jumpTo v).Inv :=
  h.of_frame (by simp [State.SameConfig]) (by simp) (by simp)

theorem State.Inv.emit (h : s.Inv) (bs : List Byte) : (s.emit bs).Inv :=
  h.of_frame (by simp [State.SameConfig]) (by simp) (by simp)

theorem State.Inv.withStatus (h : s.Inv) (x : Status) : ({ s with status := x } : State).Inv :=
  h.of_frame (by simp [State.SameConfig]) rfl rfl

theorem State.Inv.raise (h : s.Inv) (c : Cause) : (s.raise c).Inv := h.withStatus (.faulted c)

theorem State.Inv.withInput (h : s.Inv) (src : InputSource) : ({ s with input := src } : State).Inv :=
  h.of_frame (by simp [State.SameConfig]) rfl rfl

theorem State.Inv.withSn (h : s.Inv) {n : Word} (h0 : 0 ≤ n.toInt) (hn : n.toInt ≤ s.capacity.toInt) :
    ({ s with sn := n } : State).Inv where
  config := h.config.of_sameConfig (by simp [State.SameConfig])
  memoryCanonical := h.memoryCanonical
  memoryInside := h.memoryInside
  snNonneg := h0
  snBounded := hn

theorem State.Inv.memWrite (h : s.Inv) {a : Int} {v : Word} (hw : s.memWrite a v = .ok t) : t.Inv := by
  obtain ⟨⟨h0, hlt⟩, rfl⟩ := State.memWrite_ok.mp hw
  exact {
    config := h.config.of_sameConfig (by simp [State.SameConfig])
    memoryCanonical := Memory.wf_write _ _ _ h.memoryCanonical
    memoryInside := Memory.within_write _ _ _ h.memoryInside (show a.toNat < s.memWords by omega)
    snNonneg := h.snNonneg
    snBounded := h.snBounded }

/-- A push writes inside the region, and its check keeps sn at most capacity (20_memory.md R68). -/
theorem State.Inv.pushWord (h : s.Inv) {v : Word} (hp : s.pushWord v = .ok t) : t.Inv := by
  obtain ⟨hlt, hin, rfl⟩ := State.pushWord_ok.mp hp
  have hsn := toInt_add_one_of_lt hlt
  have := h.snNonneg
  exact (h.memWrite (State.memWrite_ok.mpr ⟨hin, rfl⟩)).withSn (n := s.sn + 1) (by omega)
    (show (s.sn + 1).toInt ≤ s.capacity.toInt by omega)

/-- A pop's check keeps sn at least 0 (20_memory.md R69). -/
theorem State.Inv.popWord (h : s.Inv) {v : Word} (hp : s.popWord = .ok (v, t)) : t.Inv := by
  obtain ⟨hpos, -, -, rfl⟩ := State.popWord_ok.mp hp
  have hsn := toInt_sub_one_of_pos hpos
  have := h.snBounded
  exact h.withSn (by omega) (by omega)

theorem State.Inv.branch (h : s.Inv) {taken : Bool} {target : Word} (hb : s.branch taken target = .ok t) : t.Inv := by
  rcases State.branch_ok.mp hb with ⟨-, -, rfl⟩ | ⟨-, rfl⟩
  · exact h.jumpTo target
  · exact h.advance 2

/-! ### Every step keeps the invariant -/

theorem Completes.keeps_inv {i : Instr} (hi : Completes i s t) (h : s.Inv) : t.Inv := by
  cases i with
  | nop => obtain rfl := hi; exact h.advance 1
  | halt => obtain rfl := hi; exact (h.withStatus .halted).advance 1
  | add w | sub w | mul w | inc w | dec w => obtain ⟨n, -, rfl⟩ := hi; exact (h.setMirrored _ _).advance 2
  | div w => obtain ⟨n, q, -, -, rfl⟩ := hi; exact (h.setMirrored .a q).advance 2
  | loop target => exact h.branch hi
  | mov w imm => obtain ⟨n, -, rfl⟩ := hi; exact (h.set n imm).advance 3
  | load w imm => obtain ⟨n, a, v, -, -, -, rfl⟩ := hi; exact (h.set n v).advance 3
  | store w imm => obtain ⟨n, a, u, -, -, hu, rfl⟩ := hi; exact (h.memWrite hu).advance 3
  | in_ w =>
    obtain ⟨n, src, -, ⟨z, -, -, rfl⟩ | ⟨-, rfl⟩⟩ := hi
    · exact ((h.withInput src).set n _).advance 2
    · exact ((h.withInput src).setEndOfInput n).advance 2
  | get w =>
    obtain ⟨n, src, -, ⟨b, -, rfl⟩ | ⟨-, rfl⟩⟩ := hi
    · exact ((h.withInput src).set n _).advance 2
    · exact ((h.withInput src).setEndOfInput n).advance 2
  | out w | put w => obtain ⟨n, -, rfl⟩ := hi; exact (h.emit _).advance 2
  | swap w1 w2 => obtain ⟨x, y, -, -, rfl⟩ := hi; exact ((h.set x _).set y _).advance 3
  | push w => obtain ⟨n, u, -, hu, rfl⟩ := hi; exact (h.pushWord hu).advance 2
  | pop w => obtain ⟨n, v, u, -, hu, rfl⟩ := hi; exact ((h.popWord hu).set n v).advance 2
  | cmp w1 w2 => obtain ⟨x, y, -, -, -, rfl⟩ := hi; exact (h.setResult _).advance 3
  | jmp target | jz target | jnz target | jgt target => exact h.branch hi.2
  | call target => obtain ⟨-, u, hu, rfl⟩ := hi; exact (h.pushWord hu).jumpTo target
  | ret => obtain ⟨-, v, u, hu, rfl⟩ := hi; exact (h.popWord hu).jumpTo v

theorem exec_keeps_inv {i : Instr} (h : s.Inv) (he : exec i s = .next t) : t.Inv := by
  rcases exec_cases he with hi | ⟨c, -, rfl⟩ | ⟨w, answer, src, -, -, rfl⟩
  · exact hi.keeps_inv h
  · exact h.raise c
  · exact (h.withInput src).raise .ioError

theorem step_keeps_inv (h : s.Inv) (hs : step s = .next t) : t.Inv := by
  obtain ⟨-, ⟨-, rfl⟩ | ⟨-, -, rfl⟩ | ⟨-, -, -, rfl⟩ | ⟨-, -, i, rest, -, he⟩⟩ := step_cases hs
  · exact h
  · exact h.raise .invalidAddress
  · exact h.raise .illegalInstruction
  · exact exec_keeps_inv h he

end

/-- Settles O48: each update a step makes keeps the invariant; push and pop move sn only after their check. -/
theorem stepKeepsTheInvariant : Obligations.StepKeepsTheInvariant :=
  fun _ _ => step_keeps_inv

end Sys2Proof.Machine
end

section
/-! ## The faults of the model: a step is stuck only where the input source never answers

`Check.StopsOnly P r`: the check `r` stops the model only with a fault that satisfies `P`. It composes along the sequence
of a handler's checks, so each instruction is settled by the checks it is written in. -/

namespace Sys2Proof.Machine

section
variable {s : State} {α β : Type} {P : Fault → Prop}

/-- Where `r` stops the model, it does so with a fault that satisfies `P`; the faults of the machine are no stops. -/
def Check.StopsOnly (P : Fault → Prop) (r : Check α) : Prop := ∀ f, r = .error (.stuck f) → P f

theorem Check.StopsOnly.ok (a : α) : Check.StopsOnly P (.ok a) := nofun

theorem Check.StopsOnly.raised (c : Cause) : Check.StopsOnly P (.error (.raised c) : Check α) := nofun

theorem Check.StopsOnly.bind {x : Check α} {f : α → Check β} (hx : Check.StopsOnly P x)
    (hf : ∀ a, x = .ok a → Check.StopsOnly P (f a)) : Check.StopsOnly P (x >>= f) := by
  intro e he
  rcases Check.bind_error.mp he with hxe | ⟨a, ha, hfa⟩
  · exact hx e hxe
  · exact hf a ha e hfa

theorem State.conclude_fault {r : Check State} {f : Fault} : s.conclude r = .fault f ↔ r = .error (.stuck f) := by
  unfold State.conclude
  split <;> simp

/-- A handler stops the model only as its checks do. -/
theorem Check.StopsOnly.conclude {r : Check State} {f : Fault} (hr : Check.StopsOnly P r) (h : s.conclude r = .fault f) :
    P f :=
  hr f (State.conclude_fault.mp h)

/-! ### Checks that stop nothing -/

theorem reg_stopsOnly (w : Word) : Check.StopsOnly P (reg w) :=
  fun _ h => nomatch (reg_error.mp h).2

theorem regX_stopsOnly (w : Word) : Check.StopsOnly P (regX w) :=
  fun _ h => nomatch (regX_error.mp h).2

theorem State.recognise_stopsOnly (need : Capability) : Check.StopsOnly P (s.recognise need) :=
  fun _ h => nomatch (State.recognise_error.mp h).2

theorem aluDiv_stopsOnly (x y : Word) : Check.StopsOnly P (aluDiv x y) :=
  fun _ h => nomatch (aluDiv_error.mp h).2

theorem State.indexedAddress_stopsOnly (imm : Word) : Check.StopsOnly P (s.indexedAddress imm) :=
  fun _ h => nomatch (State.indexedAddress_error.mp h).2

/-! ### Memory accesses, which the invariant keeps inside the region -/

theorem State.ConfigOk.fetch_stopsOnly (h : s.ConfigOk) (k : Nat) : Check.StopsOnly P (s.fetch k) := by
  intro f hf
  rcases State.fetch_error.mp hf with ⟨-, hf⟩ | ⟨hk, hout, -⟩
  · cases hf
  · exact absurd (h.fetch_lt hk) hout

theorem State.ConfigOk.operand_stopsOnly (h : s.ConfigOk) (k : Nat) (w : Word) : Check.StopsOnly P (s.operand k w) :=
  fun f hf => h.fetch_stopsOnly k f (State.operand_error.mp hf)

theorem State.ConfigOk.branch_stopsOnly (h : s.ConfigOk) (taken : Bool) (target : Word) :
    Check.StopsOnly P (s.branch taken target) :=
  fun f hf => h.fetch_stopsOnly 1 f (State.branch_error.mp hf).2

theorem State.memRead_stopsOnly {a : Int} (ha : 0 ≤ a ∧ a < s.memWords) : Check.StopsOnly P (s.memRead a) :=
  fun _ h => absurd ha (State.memRead_error.mp h).1

theorem State.memWrite_stopsOnly {a : Int} (ha : 0 ≤ a ∧ a < s.memWords) (v : Word) :
    Check.StopsOnly P (s.memWrite a v) :=
  fun _ h => absurd ha (State.memWrite_error.mp h).1

theorem State.Inv.pushWord_stopsOnly (h : s.Inv) (v : Word) : Check.StopsOnly P (s.pushWord v) := by
  intro f hf
  rcases State.pushWord_error.mp hf with ⟨-, hf⟩ | ⟨-, hout, -⟩
  · cases hf
  · exact absurd (h.config.slot_inside h.snNonneg h.snBounded) hout

theorem State.Inv.popWord_stopsOnly (h : s.Inv) : Check.StopsOnly P s.popWord := by
  intro f hf
  rcases State.popWord_error.mp hf with ⟨-, hf⟩ | ⟨hpos, hout, -⟩
  · cases hf
  · exact absurd (h.top_inside hpos) hout

/-! ### Operand forms -/

/-- A handler with one register operand stops as what it does with the register (30_encoding.md R91, format R). -/
theorem State.ConfigOk.oneReg_stopsOnly (h : s.ConfigOk) {w : Word} {f : GReg → Check α}
    (hf : ∀ n, Check.StopsOnly P (f n)) :
    Check.StopsOnly P (do
      let w ← s.operand 1 w
      let n ← reg w
      f n) :=
  (h.operand_stopsOnly 1 w).bind fun w _ => (reg_stopsOnly w).bind fun n _ => hf n

/-- A handler with a register operand and an immediate stops as what it does with them (format RI). -/
theorem State.ConfigOk.regImm_stopsOnly (h : s.ConfigOk) {w imm : Word} {f : Word → GReg → Check α}
    (hf : ∀ imm n, Check.StopsOnly P (f imm n)) :
    Check.StopsOnly P (do
      let w ← s.operand 1 w
      let imm ← s.operand 2 imm
      let n ← reg w
      f imm n) :=
  (h.operand_stopsOnly 1 w).bind fun w _ => (h.operand_stopsOnly 2 imm).bind fun imm _ =>
    (reg_stopsOnly w).bind fun n _ => hf imm n

/-! ### Handlers and steps -/

/-- The fault of a step whose request for input is never answered (10_state.md R51; log 8). -/
def Unanswered (i : Instr) (s : State) (f : Fault) : Prop :=
  f = .inputUnanswered ∧
    ((∃ n, i = .in_ n ∧ s.input.readInt = none) ∨ ∃ n, i = .get n ∧ s.input.readByte = none)

theorem State.readInt_stopsOnly (w : Word) : Check.StopsOnly (Unanswered (.in_ w) s) s.readInt := by
  intro f hf
  obtain ⟨hnone, hf⟩ := State.readInt_error.mp hf
  exact ⟨Stop.stuck.inj hf, .inl ⟨w, rfl, hnone⟩⟩

theorem State.readByte_stopsOnly (w : Word) : Check.StopsOnly (Unanswered (.get w) s) s.readByte := by
  intro f hf
  obtain ⟨hnone, hf⟩ := State.readByte_error.mp hf
  exact ⟨Stop.stuck.inj hf, .inr ⟨w, rfl, hnone⟩⟩

theorem exec_fault {i : Instr} {f : Fault} (h : s.Inv) (he : exec i s = .fault f) : Unanswered i s f := by
  have hc := h.config
  cases i with
  | nop | halt => cases he
  | add w | sub w | mul w | inc w | dec w | out w =>
    exact (hc.oneReg_stopsOnly fun n => .ok _).conclude he
  | div w => exact (hc.oneReg_stopsOnly fun n => (aluDiv_stopsOnly _ _).bind fun q _ => .ok _).conclude he
  | put w =>
    refine (hc.oneReg_stopsOnly fun n => ?_).conclude he
    split
    · exact .raised _
    · exact .ok _
  | in_ w =>
    refine (hc.oneReg_stopsOnly fun n => (State.readInt_stopsOnly w).bind fun (answer, t) _ => ?_).conclude he
    cases answer <;> exact .ok _
  | get w =>
    refine (hc.oneReg_stopsOnly fun n => (State.readByte_stopsOnly w).bind fun (answer, t) _ => ?_).conclude he
    cases answer <;> exact .ok _
  | push w => exact (hc.oneReg_stopsOnly fun n => (h.pushWord_stopsOnly _).bind fun t _ => .ok _).conclude he
  | pop w =>
    refine (hc.oneReg_stopsOnly fun n => h.popWord_stopsOnly.bind fun (v, t) _ => ?_).conclude he
    exact .ok _
  | mov w imm => exact (hc.regImm_stopsOnly fun imm n => .ok _).conclude he
  | load w imm =>
    exact (hc.regImm_stopsOnly fun imm n => (State.indexedAddress_stopsOnly imm).bind fun a ha =>
      (State.memRead_stopsOnly (h.indexedAddress_inside ha)).bind fun v _ => .ok _).conclude he
  | store w imm =>
    exact (hc.regImm_stopsOnly fun imm n => (State.indexedAddress_stopsOnly imm).bind fun a ha =>
      (State.memWrite_stopsOnly (h.indexedAddress_inside ha) _).bind fun t _ => .ok _).conclude he
  | swap w1 w2 =>
    exact ((hc.operand_stopsOnly 1 w1).bind fun w1 _ => (hc.operand_stopsOnly 2 w2).bind fun w2 _ =>
      (reg_stopsOnly w1).bind fun x _ => (reg_stopsOnly w2).bind fun y _ => .ok _).conclude he
  | cmp w1 w2 =>
    exact ((State.recognise_stopsOnly .extJmp).bind fun _ _ => (hc.operand_stopsOnly 1 w1).bind fun w1 _ =>
      (hc.operand_stopsOnly 2 w2).bind fun w2 _ => (regX_stopsOnly w1).bind fun x _ =>
      (regX_stopsOnly w2).bind fun y _ => .ok _).conclude he
  | loop target => exact (hc.branch_stopsOnly _ target).conclude he
  | jmp target | jz target | jnz target | jgt target =>
    exact ((State.recognise_stopsOnly .extJmp).bind fun _ _ => hc.branch_stopsOnly _ target).conclude he
  | call target =>
    exact ((State.recognise_stopsOnly .extCall).bind fun _ _ => (hc.operand_stopsOnly 1 target).bind fun t _ =>
      (h.pushWord_stopsOnly _).bind fun u _ => .ok _).conclude he
  | ret =>
    refine ((State.recognise_stopsOnly .extCall).bind fun _ _ => h.popWord_stopsOnly.bind fun (v, t) _ => ?_).conclude he
    exact .ok _

/-- No instruction is without a meaning (40_cycle.md R122). -/
theorem exec_ne_refused (i : Instr) (s : State) (x : Refusal) : exec i s ≠ .refused x := by
  cases i with
  | nop | halt => nofun
  | _ => exact State.conclude_ne_refused

/-- A step refuses a destroyed core and nothing else (10_state.md R39). -/
theorem step_refused {x : Refusal} (h : step s = .refused x) : s.live = false := by
  unfold step at h
  split at h
  · split at h
    · split at h
      · exact absurd h State.conclude_ne_refused
      · split at h
        · exact absurd h (exec_ne_refused _ s x)
        · cases h
    · cases h
  · rename_i hlive
    exact Bool.eq_false_of_not_eq_true hlive

/-- What stops a step is its opcode fetch or the handler of the decoded instruction. -/
theorem step_fault {f : Fault} (h : step s = .fault f) :
    s.fetch 0 = .error (.stuck f) ∨ ∃ i rest, decode s.shownWords = .ok (i, rest) ∧ exec i s = .fault f := by
  unfold step at h
  split at h
  · split at h
    · split at h
      · rename_i e he
        have hf : e = .stuck f := Except.error.inj (State.conclude_fault.mp h)
        exact .inl (hf ▸ he)
      · split at h
        · exact .inr ⟨_, _, ‹_›, h⟩
        · cases h
    · cases h
  · cases h

end

/-- Settles O51: inside the invariant every access is inside the region, so what stops a step is an unanswered request. -/
theorem stepAnswersUnlessInputIsUnanswered : Obligations.StepAnswersUnlessInputIsUnanswered := by
  intro s h hlive
  cases hs : step s with
  | next t => exact .inl ⟨t, rfl⟩
  | refused x => simp [step_refused hs] at hlive
  | fault f =>
    obtain hf | ⟨i, rest, hd, he⟩ := step_fault hs
    · have hno : False := h.config.fetch_stopsOnly (P := fun _ => False) 0 f hf
      exact hno.elim
    · obtain ⟨rfl, ⟨n, rfl, hnone⟩ | ⟨n, rfl, hnone⟩⟩ := exec_fault h he
      · exact .inr ⟨rfl, .inl ⟨n, rest, hd, hnone⟩⟩
      · exact .inr ⟨rfl, .inr ⟨n, rest, hd, hnone⟩⟩

end Sys2Proof.Machine
end

section
/-! ## The input source: streams, scripts and the end of input (10_state.md R48 to R51) -/

namespace Sys2Proof.Machine

/-! ### The reference device -/

theorem takeSign_suffix (bytes : List Byte) : (takeSign bytes).2 <:+ bytes := by
  unfold takeSign
  split
  · exact List.suffix_rfl
  · rename_i b rest
    split
    · exact List.suffix_cons b rest
    · split
      · exact List.suffix_cons b rest
      · exact List.suffix_rfl

/-- ReadInt only consumes from the front: white space, sign and digits, or what a Malformed read drops. -/
theorem streamReadInt_suffix (unread : List Byte) : (streamReadInt unread).2 <:+ unread := by
  unfold streamReadInt
  split
  · exact List.nil_suffix
  · rename_i b rest hskip
    dsimp only
    split
    · exact List.drop_suffix _ _
    · have hspace : b :: rest <:+ unread := hskip ▸ List.dropWhile_suffix isSpace
      exact ((List.dropWhile_suffix isDigit).trans (takeSign_suffix (b :: rest))).trans hspace

theorem streamReadInt_eof {unread : List Byte} (h : (streamReadInt unread).1 = .eof) : (streamReadInt unread).2 = [] := by
  unfold streamReadInt at h ⊢
  split
  · rfl
  · rename_i b rest hskip
    simp only [hskip] at h
    split at h <;> cases h

theorem streamReadByte_eof {unread : List Byte} (h : (streamReadByte unread).1 = .eof) :
    (streamReadByte unread).2 = [] := by
  cases unread with
  | nil => rfl
  | cons b rest => cases h

/-! ### Any source -/

/-- A source that has answered Eof to ReadInt is the exhausted stream from then on (log 6). -/
theorem InputSource.readInt_eof {src left : InputSource} (h : src.readInt = some (.eof, left)) : left = .stream [] := by
  match src, h with
  | .stream unread, h =>
    obtain ⟨heof, rfl⟩ := Prod.mk.inj (Option.some.inj h)
    rw [streamReadInt_eof heof]
  | .script (.eof :: _) _, h => exact (Prod.mk.inj (Option.some.inj h)).2.symm

/-- A source that has answered Eof to ReadByte is the exhausted stream from then on (log 6). -/
theorem InputSource.readByte_eof {src left : InputSource} (h : src.readByte = some (.eof, left)) : left = .stream [] := by
  match src, h with
  | .stream unread, h =>
    obtain ⟨heof, rfl⟩ := Prod.mk.inj (Option.some.inj h)
    rw [streamReadByte_eof heof]
  | .script _ (.eof :: _), h => exact (Prod.mk.inj (Option.some.inj h)).2.symm

theorem InputSource.readInt_script_cons {answer : IntAnswer} (h : answer ≠ .eof) (ints : List IntAnswer)
    (bytes : List ByteAnswer) :
    (InputSource.script (answer :: ints) bytes).readInt = some (answer, .script ints bytes) := by
  cases answer with
  | eof => exact absurd rfl h
  | int z | malformed => rfl

theorem InputSource.readByte_script_nil (ints : List IntAnswer) : (InputSource.script ints []).readByte = none := by
  cases ints <;> rfl

/-- Settles O30: an Eof of any source leaves the exhausted stream, which answers Eof and stays as it is. -/
theorem inputSourceAnswersAndEnds : Obligations.InputSourceAnswersAndEnds := by
  refine ⟨fun unread => ⟨_, _, rfl, streamReadInt_suffix unread⟩, fun b rest => rfl, rfl,
    fun answer ints bytes h => InputSource.readInt_script_cons h ints bytes, fun b ints bytes => ?_,
    fun ints bytes => ⟨rfl, InputSource.readByte_script_nil ints, ⟨_, rfl⟩, ⟨.stream [], ?_⟩⟩, fun src left h => ?_⟩
  · rfl
  · rfl
  · obtain rfl : left = .stream [] := h.elim InputSource.readInt_eof InputSource.readByte_eof
    exact ⟨rfl, rfl⟩

end Sys2Proof.Machine
end

section
/-! ## What an instruction leaves alone: configuration, status, pc, general registers and sn

Each statement is read off `exec_cases`: a fault writes status alone, an `in` with a bad answer the input besides, and
`Completes` gives the rest instruction by instruction. -/

namespace Sys2Proof.Machine

section
variable {s t : State}

/-! ### The operations -/

/-- A transfer of control writes pc alone. -/
theorem State.branch_writes {taken : Bool} {target : Word} (h : s.branch taken target = .ok t) :
    t = { s with pc := if taken then target else s.pc + 2 } := by
  rcases State.branch_ok.mp h with ⟨rfl, -, rfl⟩ | ⟨rfl, rfl⟩ <;> rfl

/-- Only the register that is set can change. -/
theorem State.eq_of_get_set_ne {q r : GReg} {v : Word} (h : (s.set q v).get r ≠ s.get r) : r = q := by
  by_contra hne
  exact h (State.get_set_other s v hne)

theorem State.eq_of_get_setMirrored_ne {q r : GReg} {v : Word} (h : (s.setMirrored q v).get r ≠ s.get r) : r = q := by
  by_contra hne
  exact h (State.setMirrored_get_other s v hne)

/-- Of two registers set one after the other, only those two can change. -/
theorem State.eq_or_eq_of_get_set_set_ne {p q r : GReg} {v w : Word} (h : ((s.set p v).set q w).get r ≠ s.get r) :
    r = p ∨ r = q := by
  by_cases hset : ((s.set p v).set q w).get r = (s.set p v).get r
  · exact .inl (State.eq_of_get_set_ne (hset ▸ h))
  · exact .inr (State.eq_of_get_set_ne hset)

theorem State.index_of_get_set_ne {q r : GReg} {v : Word} (h : (s.set q v).get r ≠ s.get r) : q.index = r.index :=
  congrArg GReg.index (State.eq_of_get_set_ne h).symm

/-- At the end of input C and the target can change (D14). -/
theorem State.index_or_c_of_get_setEndOfInput_ne {q r : GReg} (h : (s.setEndOfInput q).get r ≠ s.get r) :
    q.index = r.index ∨ r = .c := by
  rcases State.eq_or_eq_of_get_set_set_ne h with rfl | rfl
  · exact .inr rfl
  · exact .inl rfl

/-! ### Configuration and status -/

/-- An instruction that completes keeps the configuration, and status but for `halt` (10_state.md R32, R35). -/
theorem Completes.keeps_config_and_status {i : Instr} (hi : Completes i s t) :
    s.SameConfig t ∧ (t.status = s.status ∨ i = .halt ∧ t.status = .halted) := by
  cases i with
  | nop | halt => obtain rfl := hi; simp [State.SameConfig]
  | add w | sub w | mul w | inc w | dec w | mov w imm | out w | put w => obtain ⟨n, -, rfl⟩ := hi; simp [State.SameConfig]
  | div w => obtain ⟨n, q, -, -, rfl⟩ := hi; simp [State.SameConfig]
  | swap w1 w2 => obtain ⟨x, y, -, -, rfl⟩ := hi; simp [State.SameConfig]
  | cmp w1 w2 => obtain ⟨x, y, -, -, -, rfl⟩ := hi; simp [State.SameConfig]
  | load w imm => obtain ⟨n, a, v, -, -, -, rfl⟩ := hi; simp [State.SameConfig]
  | store w imm =>
    obtain ⟨n, a, u, -, -, hu, rfl⟩ := hi
    obtain ⟨-, rfl⟩ := State.memWrite_ok.mp hu
    simp [State.SameConfig]
  | in_ w => obtain ⟨n, src, -, ⟨z, -, -, rfl⟩ | ⟨-, rfl⟩⟩ := hi <;> simp [State.SameConfig, State.setEndOfInput]
  | get w => obtain ⟨n, src, -, ⟨b, -, rfl⟩ | ⟨-, rfl⟩⟩ := hi <;> simp [State.SameConfig, State.setEndOfInput]
  | push w =>
    obtain ⟨n, u, -, hu, rfl⟩ := hi
    obtain ⟨-, -, rfl⟩ := State.pushWord_ok.mp hu
    simp [State.SameConfig]
  | pop w =>
    obtain ⟨n, v, u, -, hu, rfl⟩ := hi
    obtain ⟨-, -, -, rfl⟩ := State.popWord_ok.mp hu
    simp [State.SameConfig]
  | loop target => obtain rfl := State.branch_writes hi; simp [State.SameConfig]
  | jmp target | jz target | jnz target | jgt target => obtain rfl := State.branch_writes hi.2; simp [State.SameConfig]
  | call target =>
    obtain ⟨-, u, hu, rfl⟩ := hi
    obtain ⟨-, -, rfl⟩ := State.pushWord_ok.mp hu
    simp [State.SameConfig]
  | ret =>
    obtain ⟨-, v, u, hu, rfl⟩ := hi
    obtain ⟨-, -, -, rfl⟩ := State.popWord_ok.mp hu
    simp [State.SameConfig]

theorem exec_keeps_config {i : Instr} (h : exec i s = .next t) : s.SameConfig t := by
  rcases exec_cases h with hi | ⟨c, -, rfl⟩ | ⟨w, answer, src, -, -, rfl⟩
  · exact hi.keeps_config_and_status.1
  · simp [State.SameConfig]
  · simp [State.SameConfig]

/-- An instruction writes Halted (`halt` alone), a fault, or no status at all (10_state.md R32). -/
theorem exec_status {i : Instr} (h : exec i s = .next t) :
    t.status = s.status ∨ (i = .halt ∧ t.status = .halted) ∨ ∃ c, t.status = .faulted c := by
  rcases exec_cases h with hi | ⟨c, -, rfl⟩ | ⟨w, answer, src, -, -, rfl⟩
  · exact hi.keeps_config_and_status.2.imp_right .inl
  · exact .inr (.inr ⟨c, rfl⟩)
  · exact .inr (.inr ⟨.ioError, rfl⟩)

/-- A running core's instruction that completes leaves no fault. -/
theorem Completes.status_ne_faulted {i : Instr} (hi : Completes i s t) (hrun : s.status = .running) (c : Cause) :
    t.status ≠ .faulted c := by
  obtain ⟨-, hst | ⟨-, hst⟩⟩ := hi.keeps_config_and_status <;> simp [hst, hrun]

end

/-- Settles O47: a reset and every way a step can go keep each configuration field. -/
theorem stepAndResetKeepTheConfiguration : Obligations.StepAndResetKeepTheConfiguration := by
  rintro s t (h | h)
  · obtain ⟨-, ⟨-, rfl⟩ | ⟨-, -, rfl⟩ | ⟨-, -, -, rfl⟩ | ⟨-, -, i, rest, -, he⟩⟩ := step_cases h
    · simp [State.SameConfig]
    · simp [State.SameConfig]
    · simp [State.SameConfig]
    · exact exec_keeps_config he
  · obtain ⟨-, rfl⟩ := resetCore_next.mp h
    simp [State.SameConfig]

/-- Settles O37: a fault keeps pc; every other outcome is a completed instruction, and those are gone through one by one. -/
theorem pcAfterEachInstruction : Obligations.PcAfterEachInstruction := by
  intro i s t hrun h
  rcases exec_cases h with hi | ⟨c, -, rfl⟩ | ⟨w, answer, src, -, -, rfl⟩
  · refine ⟨fun ⟨c, hc⟩ => absurd hc (hi.status_ne_faulted hrun c), fun _ => ?_⟩
    cases i with
    | nop | halt => obtain rfl := hi; rfl
    | add w | sub w | mul w | inc w | dec w | mov w imm | out w | put w => obtain ⟨n, -, rfl⟩ := hi; simp
    | div w => obtain ⟨n, q, -, -, rfl⟩ := hi; simp
    | swap w1 w2 => obtain ⟨x, y, -, -, rfl⟩ := hi; simp
    | cmp w1 w2 => obtain ⟨x, y, -, -, -, rfl⟩ := hi; simp
    | load w imm => obtain ⟨n, a, v, -, -, -, rfl⟩ := hi; simp
    | store w imm =>
      obtain ⟨n, a, u, -, -, hu, rfl⟩ := hi
      obtain ⟨-, rfl⟩ := State.memWrite_ok.mp hu
      simp
    | in_ w => obtain ⟨n, src, -, ⟨z, -, -, rfl⟩ | ⟨-, rfl⟩⟩ := hi <;> simp [State.setEndOfInput]
    | get w => obtain ⟨n, src, -, ⟨b, -, rfl⟩ | ⟨-, rfl⟩⟩ := hi <;> simp [State.setEndOfInput]
    | push w =>
      obtain ⟨n, u, -, hu, rfl⟩ := hi
      obtain ⟨-, -, rfl⟩ := State.pushWord_ok.mp hu
      simp
    | pop w =>
      obtain ⟨n, v, u, -, hu, rfl⟩ := hi
      obtain ⟨-, -, -, rfl⟩ := State.popWord_ok.mp hu
      simp
    | loop target => obtain rfl := State.branch_writes hi; simp [State.condLoop]
    | jmp target => obtain rfl := State.branch_writes hi.2; simp
    | jz target => obtain rfl := State.branch_writes hi.2; simp [State.condZero]
    | jnz target => obtain rfl := State.branch_writes hi.2; simp [State.condNonZero]
    | jgt target => obtain rfl := State.branch_writes hi.2; simp [State.condPositive]
    | call target => obtain ⟨-, u, -, rfl⟩ := hi; simp
    | ret =>
      obtain ⟨-, v, u, hu, rfl⟩ := hi
      obtain ⟨-, -, rfl, -⟩ := State.popWord_ok.mp hu
      simp
  · exact ⟨fun _ => rfl, fun hno => absurd rfl (hno c)⟩
  · exact ⟨fun _ => rfl, fun hno => absurd rfl (hno .ioError)⟩

/-- Settles O38: a fault sets no register, and a completed instruction only those it names, and A or C where its row says. -/
theorem generalRegisterWriters : Obligations.GeneralRegisterWriters := by
  intro i s t r h hne
  rcases exec_cases h with hi | ⟨c, -, rfl⟩ | ⟨w, answer, src, -, -, rfl⟩
  · cases i with
    | nop | halt => obtain rfl := hi; exact hne (by cases r <;> rfl)
    | add w | sub w | mul w =>
      obtain ⟨n, -, rfl⟩ := hi
      rw [State.advance_get] at hne
      exact State.eq_of_get_setMirrored_ne hne
    | div w =>
      obtain ⟨n, q, -, -, rfl⟩ := hi
      rw [State.advance_get] at hne
      exact State.eq_of_get_setMirrored_ne hne
    | inc w | dec w =>
      obtain ⟨n, rfl, rfl⟩ := hi
      rw [State.advance_get] at hne
      exact congrArg GReg.index (State.eq_of_get_setMirrored_ne hne).symm
    | mov w imm =>
      obtain ⟨n, rfl, rfl⟩ := hi
      exact State.index_of_get_set_ne hne
    | load w imm =>
      obtain ⟨n, a, v, rfl, -, -, rfl⟩ := hi
      exact State.index_of_get_set_ne hne
    | pop w =>
      obtain ⟨n, v, u, rfl, hu, rfl⟩ := hi
      obtain ⟨-, -, -, rfl⟩ := State.popWord_ok.mp hu
      exact State.index_of_get_set_ne hne
    | in_ w =>
      obtain ⟨n, src, rfl, ⟨z, -, -, rfl⟩ | ⟨-, rfl⟩⟩ := hi
      · exact .inl (State.index_of_get_set_ne hne)
      · exact State.index_or_c_of_get_setEndOfInput_ne hne
    | get w =>
      obtain ⟨n, src, rfl, ⟨b, -, rfl⟩ | ⟨-, rfl⟩⟩ := hi
      · exact .inl (State.index_of_get_set_ne hne)
      · exact State.index_or_c_of_get_setEndOfInput_ne hne
    | swap w1 w2 =>
      obtain ⟨x, y, rfl, rfl, rfl⟩ := hi
      rcases State.eq_or_eq_of_get_set_set_ne hne with rfl | rfl
      · exact .inl rfl
      · exact .inr rfl
    | store w imm =>
      obtain ⟨n, a, u, -, -, hu, rfl⟩ := hi
      obtain ⟨-, rfl⟩ := State.memWrite_ok.mp hu
      exact hne rfl
    | out w | put w => obtain ⟨n, -, rfl⟩ := hi; exact hne (by simp)
    | push w =>
      obtain ⟨n, u, -, hu, rfl⟩ := hi
      obtain ⟨-, -, rfl⟩ := State.pushWord_ok.mp hu
      exact hne rfl
    | cmp w1 w2 => obtain ⟨x, y, -, -, -, rfl⟩ := hi; exact hne (by simp)
    | loop target => obtain rfl := State.branch_writes hi; exact hne rfl
    | jmp target | jz target | jnz target | jgt target => obtain rfl := State.branch_writes hi.2; exact hne rfl
    | call target =>
      obtain ⟨-, u, hu, rfl⟩ := hi
      obtain ⟨-, -, rfl⟩ := State.pushWord_ok.mp hu
      exact hne rfl
    | ret =>
      obtain ⟨-, v, u, hu, rfl⟩ := hi
      obtain ⟨-, -, -, rfl⟩ := State.popWord_ok.mp hu
      exact hne rfl
  · exact absurd (State.raise_get ..) hne
  · exact absurd rfl hne

/-- Settles O41: push and call move sn as a push does, pop and ret as a pop does; the other instructions do not write it. -/
theorem stackSizeWriters : Obligations.StackSizeWriters := by
  intro i s t h hne
  rcases exec_cases h with hi | ⟨c, -, rfl⟩ | ⟨w, answer, src, -, -, rfl⟩
  · cases i with
    | push w =>
      obtain ⟨n, u, -, hu, rfl⟩ := hi
      obtain ⟨hroom, -, rfl⟩ := State.pushWord_ok.mp hu
      exact ⟨hroom, rfl⟩
    | call target =>
      obtain ⟨-, u, hu, rfl⟩ := hi
      obtain ⟨hroom, -, rfl⟩ := State.pushWord_ok.mp hu
      exact ⟨hroom, rfl⟩
    | pop w =>
      obtain ⟨n, v, u, -, hu, rfl⟩ := hi
      obtain ⟨hpos, -, -, rfl⟩ := State.popWord_ok.mp hu
      exact ⟨hpos, by simp⟩
    | ret =>
      obtain ⟨-, v, u, hu, rfl⟩ := hi
      obtain ⟨hpos, -, -, rfl⟩ := State.popWord_ok.mp hu
      exact ⟨hpos, rfl⟩
    | nop | halt => obtain rfl := hi; exact hne rfl
    | add w | sub w | mul w | inc w | dec w | mov w imm | out w | put w =>
      obtain ⟨n, -, rfl⟩ := hi
      exact hne (by simp)
    | div w => obtain ⟨n, q, -, -, rfl⟩ := hi; exact hne (by simp)
    | swap w1 w2 => obtain ⟨x, y, -, -, rfl⟩ := hi; exact hne (by simp)
    | cmp w1 w2 => obtain ⟨x, y, -, -, -, rfl⟩ := hi; exact hne rfl
    | load w imm => obtain ⟨n, a, v, -, -, -, rfl⟩ := hi; exact hne (by simp)
    | store w imm =>
      obtain ⟨n, a, u, -, -, hu, rfl⟩ := hi
      obtain ⟨-, rfl⟩ := State.memWrite_ok.mp hu
      exact hne rfl
    | in_ w =>
      obtain ⟨n, src, -, ⟨z, -, -, rfl⟩ | ⟨-, rfl⟩⟩ := hi <;> exact hne (by simp [State.setEndOfInput])
    | get w =>
      obtain ⟨n, src, -, ⟨b, -, rfl⟩ | ⟨-, rfl⟩⟩ := hi <;> exact hne (by simp [State.setEndOfInput])
    | loop target => obtain rfl := State.branch_writes hi; exact hne rfl
    | jmp target | jz target | jnz target | jgt target => obtain rfl := State.branch_writes hi.2; exact hne rfl
  · exact absurd rfl hne
  · exact absurd rfl hne

end Sys2Proof.Machine
end

section
/-! ## Status is read by no instruction (10_state.md R32)

`Check.Related R x y`: the checks `x` and `y` fail alike or answer values that `R` relates. Run from two states that differ
in status alone, the checks of a handler are related, and so the handler's two answers differ in status alone. -/

namespace Sys2Proof.Machine

/-- The two states differ in status at most. -/
def State.SameButStatus (s t : State) : Prop := ∃ x : Status, t = { s with status := x }

/-- The two checks fail alike, or answer related values. -/
def Check.Related {α : Type} (R : α → α → Prop) : Check α → Check α → Prop
  | .ok a, .ok b => R a b
  | .error e, .error f => e = f
  | _, _ => False

section
variable {s t : State} {α β : Type} {R : α → α → Prop} {S : β → β → Prop}

/-! ### Sequencing -/

theorem Check.Related.ok {a b : α} (h : R a b) : Check.Related R (.ok a) (.ok b) := h

theorem Check.Related.error (e : Stop) : Check.Related R (.error e) (.error e) := rfl

theorem Check.Related.bind {x y : Check α} {f g : α → Check β} (hxy : Check.Related R x y)
    (hfg : ∀ a b, R a b → Check.Related S (f a) (g b)) : Check.Related S (x >>= f) (y >>= g) := by
  match x, y, hxy with
  | .ok a, .ok b, hab => exact hfg a b hab
  | .error e, .error _, rfl => exact .error e

/-- A check that both sequences make is the same for both. -/
theorem Check.Related.bind_same {x : Check α} {f g : α → Check β} (hfg : ∀ a, Check.Related S (f a) (g a)) :
    Check.Related S (x >>= f) (x >>= g) := by
  cases x with
  | ok a => exact hfg a
  | error e => exact .error e

/-- The ends of two related handlers: the fault of a failing check is raised in either state. -/
theorem Check.Related.conclude {r r' : Check State} {s' : State} (hr : Check.Related State.SameButStatus r r')
    (hs : s.SameButStatus s') (h : s.conclude r = .next t) : ∃ u, s'.conclude r' = .next u ∧ t.SameButStatus u := by
  match r, r', hr with
  | .ok a, .ok b, hab =>
    obtain rfl : a = t := Host.Outcome.next.inj h
    exact ⟨b, rfl, hab⟩
  | .error (.raised c), .error _, rfl =>
    obtain ⟨x, rfl⟩ := hs
    obtain rfl : s.raise c = t := Host.Outcome.next.inj h
    exact ⟨_, rfl, .faulted c, rfl⟩
  | .error (.stuck f), .error _, rfl => cases h

/-! ### The operations of the handlers -/

theorem State.SameButStatus.set (h : s.SameButStatus t) (r : GReg) (v : Word) : (s.set r v).SameButStatus (t.set r v) := by
  obtain ⟨x, rfl⟩ := h
  exact ⟨x, by cases r <;> rfl⟩

theorem State.SameButStatus.setResult (h : s.SameButStatus t) (v : Word) :
    (s.setResult v).SameButStatus (t.setResult v) := by
  obtain ⟨x, rfl⟩ := h
  exact ⟨x, rfl⟩

theorem State.SameButStatus.setMirrored (h : s.SameButStatus t) (r : GReg) (v : Word) :
    (s.setMirrored r v).SameButStatus (t.setMirrored r v) :=
  (h.set r v).setResult v

theorem State.SameButStatus.setEndOfInput (h : s.SameButStatus t) (r : GReg) :
    (s.setEndOfInput r).SameButStatus (t.setEndOfInput r) :=
  (h.set .c 0).set r (-1)

theorem State.SameButStatus.advance (h : s.SameButStatus t) (k : Nat) : (s.advance k).SameButStatus (t.advance k) := by
  obtain ⟨x, rfl⟩ := h
  exact ⟨x, rfl⟩

theorem State.SameButStatus.jumpTo (h : s.SameButStatus t) (v : Word) : (s.jumpTo v).SameButStatus (t.jumpTo v) := by
  obtain ⟨x, rfl⟩ := h
  exact ⟨x, rfl⟩

theorem State.SameButStatus.raise (h : s.SameButStatus t) (c : Cause) : (s.raise c).SameButStatus (t.raise c) := by
  obtain ⟨x, rfl⟩ := h
  exact ⟨.faulted c, rfl⟩

theorem State.SameButStatus.emit (h : s.SameButStatus t) (bs : List Byte) : (s.emit bs).SameButStatus (t.emit bs) := by
  obtain ⟨x, rfl⟩ := h
  exact ⟨x, rfl⟩

theorem State.SameButStatus.get_eq (h : s.SameButStatus t) (r : GReg) : t.get r = s.get r := by
  obtain ⟨x, rfl⟩ := h
  rfl

theorem State.SameButStatus.operand_eq (h : s.SameButStatus t) (k : Nat) (w : Word) : t.operand k w = s.operand k w := by
  obtain ⟨x, rfl⟩ := h
  rfl

theorem State.SameButStatus.memWrite (h : s.SameButStatus t) (a : Int) (v : Word) :
    Check.Related State.SameButStatus (s.memWrite a v) (t.memWrite a v) := by
  obtain ⟨x, rfl⟩ := h
  unfold State.memWrite
  dsimp only
  split
  · exact .ok ⟨x, rfl⟩
  · exact .error _

theorem State.SameButStatus.pushWord (h : s.SameButStatus t) (v : Word) :
    Check.Related State.SameButStatus (s.pushWord v) (t.pushWord v) := by
  have hsame : t.pushAddress = s.pushAddress := by obtain ⟨x, rfl⟩ := h; rfl
  unfold State.pushWord
  rw [hsame]
  refine .bind_same fun a => (h.memWrite a v).bind fun u u' hu => ?_
  obtain ⟨x, rfl⟩ := hu
  exact .ok ⟨x, rfl⟩

/-- A pop or a device answers the same value and leaves states that differ in status at most. -/
def SameAnswer (p q : α × State) : Prop := p.1 = q.1 ∧ p.2.SameButStatus q.2

theorem State.SameButStatus.popWord (h : s.SameButStatus t) : Check.Related SameAnswer s.popWord t.popWord := by
  obtain ⟨x, rfl⟩ := h
  exact .bind_same (x := s.popAddress) fun a => .bind_same (x := s.memRead a) fun v => .ok ⟨rfl, x, rfl⟩

theorem State.SameButStatus.branch (h : s.SameButStatus t) (taken : Bool) (target : Word) :
    Check.Related State.SameButStatus (s.branch taken target) (t.branch taken target) := by
  cases taken with
  | false => exact .ok (h.advance 2)
  | true =>
    unfold State.branch
    rw [h.operand_eq]
    exact .bind_same fun w => .ok (h.jumpTo w)

theorem State.SameButStatus.readInt (h : s.SameButStatus t) : Check.Related SameAnswer s.readInt t.readInt := by
  obtain ⟨x, rfl⟩ := h
  unfold State.readInt
  dsimp only
  split
  · exact .ok ⟨rfl, x, rfl⟩
  · exact .error _

theorem State.SameButStatus.readByte (h : s.SameButStatus t) : Check.Related SameAnswer s.readByte t.readByte := by
  obtain ⟨x, rfl⟩ := h
  unfold State.readByte
  dsimp only
  split
  · exact .ok ⟨rfl, x, rfl⟩
  · exact .error _

/-! ### The handlers -/

/-- A handler with one register operand is related to itself as what it does with the register (30_encoding.md R91, format R). -/
theorem State.SameButStatus.oneReg (h : s.SameButStatus t) {w : Word} {f g : GReg → Check β}
    (hfg : ∀ n, Check.Related S (f n) (g n)) :
    Check.Related S
      (do
        let w ← s.operand 1 w
        let n ← reg w
        f n)
      (do
        let w ← t.operand 1 w
        let n ← reg w
        g n) := by
  rw [h.operand_eq]
  exact .bind_same fun w => .bind_same fun n => hfg n

/-- A handler with a register operand and an immediate is related to itself as what it does with them (format RI). -/
theorem State.SameButStatus.regImm (h : s.SameButStatus t) {w imm : Word} {f g : Word → GReg → Check β}
    (hfg : ∀ imm n, Check.Related S (f imm n) (g imm n)) :
    Check.Related S
      (do
        let w ← s.operand 1 w
        let imm ← s.operand 2 imm
        let n ← reg w
        f imm n)
      (do
        let w ← t.operand 1 w
        let imm ← t.operand 2 imm
        let n ← reg w
        g imm n) := by
  rw [h.operand_eq, h.operand_eq]
  exact .bind_same fun w => .bind_same fun imm => .bind_same fun n => hfg imm n

/-- Whatever status an instruction begins with, it leaves the same state but for status. -/
theorem exec_sameButStatus {i : Instr} (x : Status) (h : exec i s = .next t) :
    ∃ u, exec i { s with status := x } = .next u ∧ t.SameButStatus u := by
  have hs : s.SameButStatus { s with status := x } := ⟨x, rfl⟩
  cases i with
  | nop => exact (Check.Related.ok (hs.advance 1)).conclude hs h
  | halt =>
    have hhalted : State.SameButStatus { s with status := .halted } { s with status := .halted } := ⟨.halted, rfl⟩
    exact (Check.Related.ok (hhalted.advance 1)).conclude hs h
  | add w | sub w | mul w | inc w | dec w =>
    exact (hs.oneReg fun n => .ok ((hs.setMirrored _ _).advance 2)).conclude hs h
  | div w =>
    exact (hs.oneReg fun n => .bind_same fun q => .ok ((hs.setMirrored .a q).advance 2)).conclude hs h
  | out w => exact (hs.oneReg fun n => .ok ((hs.emit _).advance 2)).conclude hs h
  | put w =>
    refine (hs.oneReg fun n => ?_).conclude hs h
    rw [hs.get_eq]
    split
    · exact .error _
    · exact .ok ((hs.emit _).advance 2)
  | in_ w =>
    refine (hs.oneReg fun n => hs.readInt.bind ?_).conclude hs h
    rintro ⟨answer, u⟩ ⟨_, u'⟩ ⟨rfl, hu⟩
    cases answer with
    | malformed => exact .ok (hu.raise .ioError)
    | eof => exact .ok ((hu.setEndOfInput n).advance 2)
    | int z =>
      refine .ok ?_
      split
      · exact (hu.set n _).advance 2
      · exact hu.raise .ioError
  | get w =>
    refine (hs.oneReg fun n => hs.readByte.bind ?_).conclude hs h
    rintro ⟨answer, u⟩ ⟨_, u'⟩ ⟨rfl, hu⟩
    cases answer with
    | byte b => exact .ok ((hu.set n _).advance 2)
    | eof => exact .ok ((hu.setEndOfInput n).advance 2)
  | push w => exact (hs.oneReg fun n => (hs.pushWord _).bind fun u u' hu => .ok (hu.advance 2)).conclude hs h
  | pop w =>
    refine (hs.oneReg fun n => hs.popWord.bind ?_).conclude hs h
    rintro ⟨v, u⟩ ⟨_, u'⟩ ⟨rfl, hu⟩
    exact .ok ((hu.set n v).advance 2)
  | mov w imm => exact (hs.regImm fun imm n => .ok ((hs.set n imm).advance 3)).conclude hs h
  | load w imm =>
    exact (hs.regImm fun imm n => .bind_same (x := s.indexedAddress imm) fun a =>
      .bind_same (x := s.memRead a) fun v => .ok ((hs.set n v).advance 3)).conclude hs h
  | store w imm =>
    exact (hs.regImm fun imm n => .bind_same (x := s.indexedAddress imm) fun a =>
      (hs.memWrite a (s.get n)).bind fun u u' hu => .ok (hu.advance 3)).conclude hs h
  | swap w1 w2 =>
    exact (Check.Related.bind_same (x := s.operand 1 w1) fun w1 => .bind_same (x := s.operand 2 w2) fun w2 =>
      .bind_same fun x => .bind_same fun y => .ok (((hs.set x _).set y _).advance 3)).conclude hs h
  | cmp w1 w2 =>
    exact (Check.Related.bind_same (x := s.recognise .extJmp) fun _ => .bind_same (x := s.operand 1 w1) fun w1 =>
      .bind_same (x := s.operand 2 w2) fun w2 => .bind_same fun x => .bind_same fun y =>
      .ok ((hs.setResult _).advance 3)).conclude hs h
  | loop target => exact (hs.branch _ target).conclude hs h
  | jmp target | jz target | jnz target | jgt target =>
    exact (Check.Related.bind_same (x := s.recognise .extJmp) fun _ => hs.branch _ target).conclude hs h
  | call target =>
    exact (Check.Related.bind_same (x := s.recognise .extCall) fun _ => .bind_same (x := s.operand 1 target) fun w =>
      (hs.pushWord _).bind fun u u' hu => .ok (hu.jumpTo w)).conclude hs h
  | ret =>
    refine (Check.Related.bind_same (x := s.recognise .extCall) fun _ => hs.popWord.bind ?_).conclude hs h
    rintro ⟨v, u⟩ ⟨_, u'⟩ ⟨rfl, hu⟩
    exact .ok (hu.jumpTo v)

theorem create_status {region : Memory} {memWords stackBottom capacity : Nat} {extJmp extCall : Bool}
    {input : InputSource} {output : List Byte}
    (h : create region memWords stackBottom capacity extJmp extCall input output = .next s) : s.status = .running := by
  unfold create at h
  split at h
  · cases h
    rfl
  · cases h

/-- Where a step can take the status of a running core: the halt it decoded stops it, or a fault. -/
theorem step_status (h : step s = .next t) (hrun : s.status = .running) :
    t.status = .running ∨ (t.status = .halted ∧ ∃ rest, decode s.shownWords = .ok (.halt, rest)) ∨
      ∃ c, t.status = .faulted c := by
  obtain ⟨-, ⟨hstop, -⟩ | ⟨-, -, rfl⟩ | ⟨-, -, -, rfl⟩ | ⟨-, -, i, rest, hd, he⟩⟩ := step_cases h
  · exact absurd hrun hstop
  · exact .inr (.inr ⟨_, rfl⟩)
  · exact .inr (.inr ⟨_, rfl⟩)
  · rcases exec_status he with hsame | ⟨rfl, hhalt⟩ | hfault
    · exact .inl (hsame.trans hrun)
    · exact .inr (.inl ⟨hhalt, rest, hd⟩)
    · exact .inr (.inr hfault)

/-- A step of a core that is not Running changes nothing (40_cycle.md R120). -/
theorem step_of_stopped (h : step s = .next t) (hstop : s.status ≠ .running) : t = s := by
  obtain ⟨-, ⟨-, rfl⟩ | ⟨hrun, -⟩ | ⟨hrun, -⟩ | ⟨hrun, -⟩⟩ := step_cases h
  · rfl
  iterate 3 exact absurd hrun hstop

end

/-- Settles O43: who writes status is read off the cases of step, exec and the host's operations; that no instruction reads it
is `exec_sameButStatus`. -/
theorem statusTransitions : Obligations.StatusTransitions := by
  refine ⟨fun s t => step_of_stopped, fun s t => step_status, fun i s t => exec_status, fun i s t x h => ?_,
    fun s t h => ?_, fun s t h => ?_, fun _ _ _ _ _ _ _ _ s => create_status⟩
  · obtain ⟨_, hu, y, rfl⟩ := exec_sameButStatus x h
    exact ⟨_, hu, rfl⟩
  · obtain ⟨-, rfl⟩ := resetCore_next.mp h
    rfl
  · obtain ⟨-, rfl⟩ := destroy_next.mp h
    rfl

end Sys2Proof.Machine
end

section
/-! ## Inspection of a core, and what is left of a destroyed one (10_state.md R39, R47) -/

namespace Sys2Proof.Machine

section
variable {s : State}

theorem step_of_not_live (h : s.live = false) : step s = .refused .destroyed := by simp [step, h]

theorem resetCore_of_not_live (h : s.live = false) : resetCore s = .refused .destroyed := by simp [resetCore, h]

theorem destroy_of_not_live (h : s.live = false) : destroy s = .refused .destroyed := by simp [destroy, h]

theorem inspect_of_not_live (h : s.live = false) (q : Query) : inspect q s = .error .destroyed := by simp [inspect, h]

theorem run_of_not_live (h : s.live = false) (n : Int) : run n s = .refused .destroyed := by simp [run, h]

end

/-- Settles O58: a live core answers each query with the field it names; destroy clears `live`, and then nothing answers. -/
theorem inspectionReportsTheRegisters : Obligations.InspectionReportsTheRegisters := by
  intro s hlive
  refine ⟨fun r => ?_, ?_, ?_, ?_, fun hj => ?_, fun hj => ?_, { s with live := false }, destroy_next.mpr ⟨hlive, rfl⟩,
    step_of_not_live rfl, resetCore_of_not_live rfl, destroy_of_not_live rfl,
    fun q n => ⟨inspect_of_not_live rfl q, run_of_not_live rfl n⟩⟩
  · simp [inspect, hlive]
  · simp [inspect, hlive]
  · simp [inspect, hlive]
  · cases hst : s.status with
    | running | halted => simp [inspect, hlive, hst, Status.code]
    | faulted c => cases c <;> simp [inspect, hlive, hst, Status.code]
  · simp [inspect, hlive, hj]
  · simp [inspect, hlive, hj]

/-! ### The reset state -/

theorem State.reset_inv : State.reset.Inv where
  config := by constructor <;> decide
  memoryCanonical := by decide
  memoryInside := by decide
  snNonneg := by decide
  snBounded := by decide

/-- Settles O50: the parameters of the reset state meet the bounds, and its memory lists no word, so every word is 0. -/
theorem resetStateMeetsTheInvariant : Obligations.ResetStateMeetsTheInvariant :=
  ⟨State.reset_inv, {
    inv := State.reset_inv
    live := rfl
    running := rfl
    regA := rfl
    regB := rfl
    regC := rfl
    regD := rfl
    result := rfl
    pc := rfl
    sn := rfl
    stackZone := fun a _ _ => Memory.read_nil a }⟩

end Sys2Proof.Machine
end

section
/-! ## What an instruction does to memory and to the devices (20_memory.md R61, R83; 60_exceptions.md R271)

`Effect` is read off `exec_cases` once; the statements on memory and on the devices follow from its five cases. -/

namespace Sys2Proof.Machine

section
variable {s t : State} {i : Instr}

/-- What an instruction that answers a next state does to memory, the input source and the output: nothing, or exactly one of
a request, an emission, a push of one word and a store of one word. -/
inductive Effect (i : Instr) (s t : State) : Prop where
  | none (mem : t.memory = s.memory) (inp : t.input = s.input) (out : t.output = s.output)
  | request (w : Word) (instr : i = .in_ w ∨ i = .get w) (mem : t.memory = s.memory) (out : t.output = s.output)
  | emission (w : Word) (bytes : List Byte) (instr : i = .out w ∨ i = .put w) (mem : t.memory = s.memory)
      (inp : t.input = s.input) (out : t.output = s.output ++ bytes)
  | push (w v : Word) (instr : i = .push w ∨ i = .call w) (inside : 0 ≤ s.stackBottom.toInt - s.sn.toInt)
      (mem : t.memory = s.memory.write (s.stackBottom.toInt - s.sn.toInt).toNat v)
      (inp : t.input = s.input) (out : t.output = s.output)
  | store (w imm v : Word) (a : Int) (instr : i = .store w imm) (address : s.indexedAddress imm = .ok a) (inside : 0 ≤ a)
      (mem : t.memory = s.memory.write a.toNat v) (inp : t.input = s.input) (out : t.output = s.output)

theorem Completes.effect (hi : Completes i s t) : Effect i s t := by
  cases i with
  | nop | halt => obtain rfl := hi; exact .none rfl rfl rfl
  | add w | sub w | mul w | inc w | dec w | mov w imm =>
    obtain ⟨n, -, rfl⟩ := hi
    exact .none (by simp) (by simp) (by simp)
  | div w => obtain ⟨n, q, -, -, rfl⟩ := hi; exact .none (by simp) (by simp) (by simp)
  | swap w1 w2 => obtain ⟨x, y, -, -, rfl⟩ := hi; exact .none (by simp) (by simp) (by simp)
  | cmp w1 w2 => obtain ⟨x, y, -, -, -, rfl⟩ := hi; exact .none rfl rfl rfl
  | load w imm => obtain ⟨n, a, v, -, -, -, rfl⟩ := hi; exact .none (by simp) (by simp) (by simp)
  | pop w =>
    obtain ⟨n, v, u, -, hu, rfl⟩ := hi
    obtain ⟨-, -, -, rfl⟩ := State.popWord_ok.mp hu
    exact .none (by simp) (by simp) (by simp)
  | ret =>
    obtain ⟨-, v, u, hu, rfl⟩ := hi
    obtain ⟨-, -, -, rfl⟩ := State.popWord_ok.mp hu
    exact .none rfl rfl rfl
  | loop target => obtain rfl := State.branch_writes hi; exact .none rfl rfl rfl
  | jmp target | jz target | jnz target | jgt target => obtain rfl := State.branch_writes hi.2; exact .none rfl rfl rfl
  | in_ w =>
    obtain ⟨n, src, -, ⟨z, -, -, rfl⟩ | ⟨-, rfl⟩⟩ := hi <;>
      exact .request w (.inl rfl) (by simp [State.setEndOfInput]) (by simp [State.setEndOfInput])
  | get w =>
    obtain ⟨n, src, -, ⟨b, -, rfl⟩ | ⟨-, rfl⟩⟩ := hi <;>
      exact .request w (.inr rfl) (by simp [State.setEndOfInput]) (by simp [State.setEndOfInput])
  | out w => obtain ⟨n, -, rfl⟩ := hi; exact .emission w _ (.inl rfl) rfl rfl rfl
  | put w => obtain ⟨n, -, rfl⟩ := hi; exact .emission w _ (.inr rfl) rfl rfl rfl
  | push w =>
    obtain ⟨n, u, -, hu, rfl⟩ := hi
    obtain ⟨-, ⟨h0, -⟩, rfl⟩ := State.pushWord_ok.mp hu
    exact .push w _ (.inl rfl) h0 rfl rfl rfl
  | call target =>
    obtain ⟨-, u, hu, rfl⟩ := hi
    obtain ⟨-, ⟨h0, -⟩, rfl⟩ := State.pushWord_ok.mp hu
    exact .push target _ (.inr rfl) h0 rfl rfl rfl
  | store w imm =>
    obtain ⟨n, a, u, -, ha, hu, rfl⟩ := hi
    obtain ⟨⟨h0, -⟩, rfl⟩ := State.memWrite_ok.mp hu
    exact .store w imm _ a rfl ha h0 rfl rfl rfl

/-- A fault leaves memory and devices alone; an `in` with a bad answer has made its request. -/
theorem exec_effect (h : exec i s = .next t) : Effect i s t := by
  rcases exec_cases h with hi | ⟨c, -, rfl⟩ | ⟨w, answer, src, rfl, -, rfl⟩
  · exact hi.effect
  · exact .none rfl rfl rfl
  · exact .request w (.inl rfl) rfl rfl

/-- Only the address that is written can read another word afterwards. -/
theorem Memory.eq_of_read_write_ne {m : Memory} {a x : Nat} {v : Word} (h : (m.write a v).read x ≠ m.read x) : x = a := by
  by_contra hne
  exact h (Memory.read_write_other m a x v hne)

end

/-- Settles O40: of the five effects only a push and a store write memory, each the one word at its address. -/
theorem memoryWriters : Obligations.MemoryWriters := by
  intro i s t a h hne
  cases exec_effect h with
  | none mem | request _ _ mem | emission _ _ _ mem => exact absurd (by rw [mem]) hne
  | push w v instr inside mem =>
    rw [mem] at hne
    have ha : (a : Int) = s.stackBottom.toInt - s.sn.toInt := by
      rw [Memory.eq_of_read_write_ne hne, Int.toNat_of_nonneg inside]
    rcases instr with rfl | rfl <;> exact ha
  | store w imm v b instr address inside mem =>
    obtain rfl := instr
    obtain ⟨-, hb⟩ := State.indexedAddress_ok.mp address
    rw [mem] at hne
    show (a : Int) = _
    rw [Memory.eq_of_read_write_ne hne, Int.toNat_of_nonneg inside, hb]

/-- Settles O42: of the five effects only a request may change the source, and only an emission the output, by appending. -/
theorem deviceUsers : Obligations.DeviceUsers := by
  intro i s t h
  cases exec_effect h with
  | none _ inp out | push _ _ _ _ _ inp out | store _ _ _ _ _ _ _ _ inp out =>
    exact ⟨absurd inp, absurd out, [], by simp [out]⟩
  | request w instr _ out => exact ⟨fun _ => ⟨w, instr⟩, absurd out, [], by simp [out]⟩
  | emission w bytes instr _ inp out => exact ⟨absurd inp, fun _ => ⟨w, instr⟩, bytes, out⟩

end Sys2Proof.Machine
end

section
/-! ## The stack address calculator stays in the slots (20_memory.md R71) -/

namespace Sys2Proof.Machine

/-- Settles O45: sn lies in 0 to capacity and stackLimit is stackBottom - capacity, so the next free slot of a stack with room,
and every live slot, lies above stackLimit and at or below stackBottom. -/
theorem stackAccessesStayInTheSlots : Obligations.StackAccessesStayInTheSlots := by
  intro s h
  have hlimit := h.config.limit
  have hsn0 := h.snNonneg
  have hsn := h.snBounded
  refine ⟨fun a ha => ?_, fun a ha => ?_⟩
  · obtain ⟨hroom, rfl⟩ := State.pushAddress_ok.mp ha
    exact ⟨rfl, by omega, by omega⟩
  · rcases ha with hpop | ⟨imm, hindexed⟩
    · obtain ⟨hpos, rfl⟩ := State.popAddress_ok.mp hpop
      exact ⟨by omega, by omega, by omega⟩
    · obtain ⟨⟨hoff0, hoff⟩, rfl⟩ := State.indexedAddress_ok.mp hindexed
      exact ⟨by omega, by omega, by omega⟩

end Sys2Proof.Machine
end

section
/-! ## The words of the loader's stream (20_memory.md R74; 70_reset_and_hazards.md R301, R302) -/

namespace Sys2Proof.Machine

/-- A byte appended at the low end. -/
theorem toNat_append_byte {n : Nat} (x : BitVec n) (b : Byte) : (x ++ b).toNat = x.toNat * 2 ^ 8 + b.toNat := by
  rw [BitVec.toNat_append, ← Nat.shiftLeft_add_eq_or_of_lt b.isLt, Nat.shiftLeft_eq]

theorem packWord_toNat (b0 b1 b2 b3 : Byte) :
    (packWord b0 b1 b2 b3).toNat = b0.toNat * 2 ^ 24 + b1.toNat * 2 ^ 16 + b2.toNat * 2 ^ 8 + b3.toNat := by
  simp only [packWord, toNat_append_byte]
  omega

/-- The refused streams: those that end inside a word. -/
theorem packWords_eq_none_iff : ∀ stream : List Byte, packWords stream = none ↔ stream.length % 4 ≠ 0
  | [] | [_] | [_, _] | [_, _, _] => by simp [packWords]
  | b0 :: b1 :: b2 :: b3 :: rest => by
    rw [packWords, Option.map_eq_none_iff, packWords_eq_none_iff rest]
    simp only [List.length_cons]
    omega

/-- The first word of a stream is its first four bytes packed, and the other words are those of the rest. -/
theorem packWords_eq_some_cons {stream : List Byte} {w : Word} {ws : List Word} (h : packWords stream = some (w :: ws)) :
    ∃ b0 b1 b2 b3 rest, stream = b0 :: b1 :: b2 :: b3 :: rest ∧ w = packWord b0 b1 b2 b3 ∧ packWords rest = some ws := by
  unfold packWords at h
  split at h
  case h_1 => cases h
  case h_2 b0 b1 b2 b3 rest =>
    obtain ⟨_, hrest, heq⟩ := Option.map_eq_some_iff.mp h
    obtain ⟨rfl, rfl⟩ := List.cons.inj heq
    exact ⟨b0, b1, b2, b3, rest, rfl, rfl, hrest⟩
  case h_3 => cases h

theorem packWords_eq_some_nil {stream : List Byte} (h : packWords stream = some []) : stream = [] := by
  unfold packWords at h
  split at h
  case h_1 => rfl
  case h_2 => simp at h
  case h_3 => cases h

theorem packWords_length {stream : List Byte} {ws : List Word} (h : packWords stream = some ws) :
    stream.length = 4 * ws.length := by
  induction ws generalizing stream with
  | nil => simp [packWords_eq_some_nil h]
  | cons w ws ih =>
    obtain ⟨b0, b1, b2, b3, rest, rfl, -, hrest⟩ := packWords_eq_some_cons h
    have := ih hrest
    simp only [List.length_cons]
    omega

/-- Word `j` of a stream is packed from the bytes 4j to 4j + 3. -/
theorem packWords_getElem? {stream : List Byte} {ws : List Word} {j : Nat} {w : Word} (h : packWords stream = some ws)
    (hw : ws[j]? = some w) :
    ∃ b0 b1 b2 b3, stream[4 * j]? = some b0 ∧ stream[4 * j + 1]? = some b1 ∧ stream[4 * j + 2]? = some b2 ∧
      stream[4 * j + 3]? = some b3 ∧ w = packWord b0 b1 b2 b3 := by
  induction ws generalizing stream j with
  | nil => simp at hw
  | cons w' ws ih =>
    obtain ⟨b0, b1, b2, b3, rest, rfl, rfl, hrest⟩ := packWords_eq_some_cons h
    cases j with
    | zero => exact ⟨b0, b1, b2, b3, rfl, rfl, rfl, rfl, (Option.some.inj hw).symm⟩
    | succ j => exact ih (stream := rest) hrest hw

/-- Settles O59: a stream is refused or peeled four bytes at a time, and appending a byte multiplies by 256 and adds it. -/
theorem loaderPacksBigEndian : Obligations.LoaderPacksBigEndian := by
  refine fun stream => ⟨packWords_eq_none_iff stream, fun ws h => ⟨packWords_length h, ?_⟩⟩
  intro j w b0 b1 b2 b3 hw h0 h1 h2 h3
  obtain ⟨c0, c1, c2, c3, hc0, hc1, hc2, hc3, rfl⟩ := packWords_getElem? h hw
  obtain rfl := Option.some.inj (h0.symm.trans hc0)
  obtain rfl := Option.some.inj (h1.symm.trans hc1)
  obtain rfl := Option.some.inj (h2.symm.trans hc2)
  obtain rfl := Option.some.inj (h3.symm.trans hc3)
  exact packWord_toNat b0 b1 b2 b3

end Sys2Proof.Machine
end

section
/-! ## The decoder and the encoder (30_encoding.md R90 to R95) -/

namespace Sys2Proof

section
variable {ws rest : List Word} {op : Word} {i : Instr}

/-! ### The formats -/

theorem decodeOne_ok {make : Word → Instr} :
    decodeOne make ws = .ok (i, rest) ↔ ∃ w, make w = i ∧ ws = w :: rest := by
  cases ws <;> simp [decodeOne]

theorem decodeTwo_ok {make : Word → Word → Instr} :
    decodeTwo make ws = .ok (i, rest) ↔ ∃ w1 w2, make w1 w2 = i ∧ ws = w1 :: w2 :: rest := by
  rcases ws with _ | ⟨w1, _ | ⟨w2, tail⟩⟩ <;> simp [decodeTwo]

theorem decodeOne_error {make : Word → Instr} {e : DecodeError} (h : decodeOne make ws = .error e) : e = .truncated := by
  unfold decodeOne at h
  split at h <;> cases h
  rfl

theorem decodeTwo_error {make : Word → Word → Instr} {e : DecodeError} (h : decodeTwo make ws = .error e) :
    e = .truncated := by
  unfold decodeTwo at h
  split at h <;> cases h
  rfl

/-! ### The opcode map -/

/-- What a row of the map reads: its number in the opcode word, and its operand words behind it. -/
theorem decode_cons_ok (h : decode (op :: ws) = .ok (i, rest)) : op.toNat = i.opcode ∧ ws = i.operands ++ rest := by
  rw [decode] at h
  split at h
  case h_1 hop | h_2 hop | h_26 hop => cases h; exact ⟨hop, rfl⟩
  case h_10 hop | h_11 hop | h_12 hop | h_17 hop | h_20 hop =>
    obtain ⟨w1, w2, rfl, rfl⟩ := decodeTwo_ok.mp h
    exact ⟨hop, rfl⟩
  case h_27 => cases h
  all_goals
    obtain ⟨w, rfl, rfl⟩ := decodeOne_ok.mp h
    exact ⟨‹_›, rfl⟩

/-- What is read back from the words of an instruction, whatever follows them. -/
theorem decode_encode_append (i : Instr) (rest : List Word) : decode (encode i ++ rest) = .ok (i, rest) := by
  cases i <;> rfl

/-- What the decoder reads is the words of an instruction, and what is left is behind them. -/
theorem eq_encode_append_of_decode (h : decode ws = .ok (i, rest)) : ws = encode i ++ rest := by
  cases ws with
  | nil => cases h
  | cons op tail =>
    obtain ⟨hop, rfl⟩ := decode_cons_ok h
    have hword : op = BitVec.ofNat 32 i.opcode := by rw [← hop, BitVec.ofNat_toNat, BitVec.setWidth_eq]
    rw [hword, encode, List.cons_append]

/-- The rows of the map end at 25: a greater number is refused, and what a row refuses is a list that ends too early. -/
theorem decode_cons_unrecognised : decode (op :: ws) = .error (.unrecognisedOpcode op) ↔ 25 < op.toNat := by
  rw [decode]
  split
  case h_1 hop | h_2 hop | h_26 hop => simp [hop]
  case h_10 hop | h_11 hop | h_12 hop | h_17 hop | h_20 hop =>
    exact iff_of_false (fun h => nomatch decodeTwo_error h) (by omega)
  case h_27 =>
    have hbeyond : 25 < op.toNat := by
      simp only [imp_false] at *
      omega
    exact iff_of_true rfl hbeyond
  all_goals exact iff_of_false (fun h => nomatch decodeOne_error h) (by omega)

/-- The signed and the unsigned value of a word agree, or it is negative and in the upper half of the unsigned ones. -/
theorem toInt_eq_toNat_or_neg (w : Word) : w.toInt = w.toNat ∨ (w.toInt < 0 ∧ 2 ^ 31 ≤ w.toNat) := by
  rw [BitVec.toInt_eq_toNat_cond]
  split <;> omega

/-- The numbers beyond the map, as signed words. -/
theorem lt_toNat_iff_toInt (op : Word) : 25 < op.toNat ↔ op.toInt < 0 ∨ 25 < op.toInt := by
  rcases toInt_eq_toNat_or_neg op with heq | ⟨hneg, hhigh⟩ <;> omega

/-! ### The extension columns of the map -/

theorem Instr.opcode_le (i : Instr) : i.opcode ≤ 25 := by
  cases i <;> simp [Instr.opcode]

theorem Instr.needs_eq_extJmp_iff : i.needs = .extJmp ↔ 19 ≤ i.opcode ∧ i.opcode ≤ 23 := by
  cases i <;> simp [Instr.needs, Instr.opcode]

theorem Instr.needs_eq_extCall_iff : i.needs = .extCall ↔ 24 ≤ i.opcode ∧ i.opcode ≤ 25 := by
  cases i <;> simp [Instr.needs, Instr.opcode]

end

/-- Settles O1: each row reads back what the encoder writes, and no row reads anything else. -/
theorem decodeAndEncodeAreInverse : Obligations.DecodeAndEncodeAreInverse := by
  refine fun ws i rest => ⟨eq_encode_append_of_decode, ?_⟩
  rintro rfl
  exact decode_encode_append i rest

/-- Settles O2: the numbers refused are those beyond the last row. -/
theorem opcodeWordsOutsideTheMapAreRefused : Obligations.OpcodeWordsOutsideTheMapAreRefused :=
  fun op _ => decode_cons_unrecognised.trans (lt_toNat_iff_toInt op)

/-- Settles O3: the words written out are the encodings of their instructions, and the last two opcode words are beyond the
map. -/
theorem writtenOutWordsDecode : Obligations.WrittenOutWordsDecode :=
  ⟨decode_encode_append .nop [], decode_encode_append (.add 1) [], decode_encode_append (.mov 0 10) [],
    decode_encode_append (.store 1 (-1)) [], decode_encode_append (.in_ 1) [], decode_encode_append (.loop 6) [],
    decode_encode_append (.cmp 4 0) [], decode_encode_append (.call 8) [],
    decode_cons_unrecognised.mpr (by decide), decode_cons_unrecognised.mpr (by decide)⟩

end Sys2Proof
end

section
/-! ## Unrecognised opcodes and register operands out of range (30_encoding.md R93, R96 to R98; 40_cycle.md R123, R126) -/

namespace Sys2Proof.Machine

section
variable {s : State} {i : Instr}

/-- A handler whose first check raises a fault ends in it. -/
theorem State.conclude_bind_raised {α : Type} {x : Check α} {c : Cause} (h : x = .error (.raised c)) (f : α → Check State) :
    s.conclude (x >>= f) = .next (s.raise c) := by
  rw [h, Check.error_bind, State.conclude_raised]

/-! ### Recognition -/

/-- The extension check stands first in each handler that has one (log 13). -/
theorem exec_of_not_recognised (h : s.recognise i.needs = .error (.raised .illegalInstruction)) :
    exec i s = .next (s.raise .illegalInstruction) := by
  cases i with
  | cmp | jmp | jz | jnz | jgt | call | ret => exact State.conclude_bind_raised h _
  | _ => cases h

theorem step_of_decode_ok {w : Word} {rest : List Word} (hlive : s.live = true) (hrun : s.status = .running)
    (hfetch : s.fetch 0 = .ok w) (hd : decode s.shownWords = .ok (i, rest)) : step s = exec i s := by
  simp only [step, hlive, hrun, hfetch, hd, if_true]

theorem step_of_decode_error {w : Word} {e : DecodeError} (hlive : s.live = true) (hrun : s.status = .running)
    (hfetch : s.fetch 0 = .ok w) (hd : decode s.shownWords = .error e) : step s = .next (s.raise .illegalInstruction) := by
  simp only [step, hlive, hrun, hfetch, hd, if_true]

/-- The opcode word is the first word shown to the decoder. -/
theorem State.ConfigOk.shownWords_eq (h : s.ConfigOk) (hk : s.CanFetch 0) :
    s.shownWords = [s.memory.read s.pc.toInt.toNat, s.shownWord 1, s.shownWord 2] := by
  rw [State.shownWords, h.shownWord_eq hk, Int.natCast_zero, add_zero]

/-! ### Register operands -/

/-- Format R (30_encoding.md R91). -/
theorem State.ConfigOk.oneReg_illegal (h : s.ConfigOk) (h1 : s.CanFetch 1) {w : Word} (hw : isRegOperand w = false)
    (f : GReg → Check State) :
    s.conclude (do
      let w ← s.operand 1 w
      let n ← reg w
      f n) = .next (s.raise .illegalOperand) := by
  rw [h.operand_eq h1, Check.ok_bind, State.conclude_bind_raised (reg_error.mpr ⟨hw, rfl⟩)]

/-- Format RI: the immediate is fetched before the register operand is checked (40_cycle.md R123, D9). -/
theorem State.ConfigOk.regImm_illegal (h : s.ConfigOk) (h1 : s.CanFetch 1) (h2 : s.CanFetch 2) {w imm : Word}
    (hw : isRegOperand w = false) (f : Word → GReg → Check State) :
    s.conclude (do
      let w ← s.operand 1 w
      let imm ← s.operand 2 imm
      let n ← reg w
      f imm n) = .next (s.raise .illegalOperand) := by
  rw [h.operand_eq h1, Check.ok_bind, h.operand_eq h2, Check.ok_bind, State.conclude_bind_raised (reg_error.mpr ⟨hw, rfl⟩)]

/-- Format RR, for either reading of a register operand: `index` is `reg` or `regX`, and `named` its range. -/
theorem State.ConfigOk.twoReg_illegal {ι : Type} {index : Word → Check ι} {named : Word → Bool}
    (hindex : ∀ {w : Word} {e : Stop}, index w = .error e ↔ named w = false ∧ e = .raised .illegalOperand)
    (h : s.ConfigOk) (h1 : s.CanFetch 1) (h2 : s.CanFetch 2) (a b : Word) (hab : (named a && named b) = false)
    (f : ι → ι → Check State) :
    s.conclude (do
      let a ← s.operand 1 a
      let b ← s.operand 2 b
      let x ← index a
      let y ← index b
      f x y) = .next (s.raise .illegalOperand) := by
  rw [h.operand_eq h1, Check.ok_bind, h.operand_eq h2, Check.ok_bind]
  cases ha : index a with
  | error e =>
    obtain ⟨-, rfl⟩ := hindex.mp ha
    exact State.conclude_bind_raised rfl _
  | ok x =>
    have hb : named b = false := by
      refine (Bool.and_eq_false_iff.mp hab).resolve_left fun hna => ?_
      cases ha.symm.trans (hindex.mpr ⟨hna, rfl⟩)
    exact State.conclude_bind_raised (hindex.mpr ⟨hb, rfl⟩) _

end

/-- Settles O8: the decoder refuses a word outside the map; a word of an extension that is off decodes, if at all, to an
instruction that is not recognised. -/
theorem unrecognisedOpcodeFaults : Obligations.UnrecognisedOpcodeFaults := by
  rintro s op hc hlive hrun hk rfl hop
  have hfetch := hc.fetch_eq hk
  cases hd : decode s.shownWords with
  | error e => exact step_of_decode_error hlive hrun hfetch hd
  | ok read =>
    obtain ⟨i, rest⟩ := read
    have hcode := (decode_cons_ok (hc.shownWords_eq hk ▸ hd)).1
    have hoff : (i.needs = .extJmp ∧ s.extJmp = false) ∨ (i.needs = .extCall ∧ s.extCall = false) := by
      have hvalue := toInt_eq_toNat_or_neg (s.memory.read s.pc.toInt.toNat)
      have hle := i.opcode_le
      rw [Instr.needs_eq_extJmp_iff, Instr.needs_eq_extCall_iff]
      rcases hop with hneg | hbig | ⟨hlo, hhi, hext⟩ | ⟨hlo, hhi, hext⟩
      · omega
      · omega
      · exact .inl ⟨by omega, hext⟩
      · exact .inr ⟨by omega, hext⟩
    rw [step_of_decode_ok hlive hrun hfetch hd]
    exact exec_of_not_recognised (State.recognise_error.mpr ⟨hoff, rfl⟩)

/-- Settles O11: each handler fetches its operand words and then reads its register operands, before anything else. -/
theorem registerOperandOutOfRangeFaults : Obligations.RegisterOperandOutOfRangeFaults := by
  intro i s hc hjmp _ hfetch hwf
  have h1 : 2 ≤ i.lengthWords → s.CanFetch 1 := hfetch 1 le_rfl
  have h2 : 3 ≤ i.lengthWords → s.CanFetch 2 := hfetch 2 one_le_two
  cases i with
  | nop | halt | loop | jmp | jz | jnz | jgt | call | ret => cases hwf
  | add | sub | mul | div | inc | dec | in_ | get | out | put | push | pop =>
    exact hc.oneReg_illegal (h1 le_rfl) hwf _
  | mov | load | store => exact hc.regImm_illegal (h1 (Nat.le_succ 2)) (h2 le_rfl) hwf _
  | swap a b => exact hc.twoReg_illegal (index := reg) reg_error (h1 (Nat.le_succ 2)) (h2 le_rfl) a b hwf _
  | cmp a b =>
    have hrec : s.recognise .extJmp = .ok () := State.recognise_ok.mpr ⟨fun _ => hjmp rfl, nofun⟩
    simp only [exec, execCmp, hrec, Check.ok_bind]
    exact hc.twoReg_illegal (index := regX) regX_error (h1 (Nat.le_succ 2)) (h2 le_rfl) a b hwf _

end Sys2Proof.Machine
end

section
/-! ## The cycle: dispatch, the stopped core, nop and halt (40_cycle.md R120 to R125) -/

namespace Sys2Proof

/-- The same instruction with other operand words: as many of `w1`, `w2` as its format has (30_encoding.md R91). -/
def Instr.withOperands (w1 w2 : Word) : Instr → Instr
  | .nop => .nop
  | .halt => .halt
  | .add _ => .add w1
  | .sub _ => .sub w1
  | .mul _ => .mul w1
  | .div _ => .div w1
  | .inc _ => .inc w1
  | .dec _ => .dec w1
  | .loop _ => .loop w1
  | .mov _ _ => .mov w1 w2
  | .load _ _ => .load w1 w2
  | .store _ _ => .store w1 w2
  | .in_ _ => .in_ w1
  | .get _ => .get w1
  | .out _ => .out w1
  | .put _ => .put w1
  | .swap _ _ => .swap w1 w2
  | .push _ => .push w1
  | .pop _ => .pop w1
  | .cmp _ _ => .cmp w1 w2
  | .jmp _ => .jmp w1
  | .jz _ => .jz w1
  | .jnz _ => .jnz w1
  | .jgt _ => .jgt w1
  | .call _ => .call w1
  | .ret => .ret

/-- The opcode word alone picks the instruction, and the words behind it are its operands, whatever they are. -/
theorem decode_opcode_cons (i : Instr) (w1 w2 : Word) :
    ∃ rest, decode [BitVec.ofNat 32 i.opcode, w1, w2] = .ok (i.withOperands w1 w2, rest) := by
  cases i <;> exact ⟨_, rfl⟩

theorem encode_getElem?_zero (i : Instr) : (encode i)[0]? = some (BitVec.ofNat 32 i.opcode) := rfl

theorem encode_getElem?_succ (i : Instr) (k : Nat) : (encode i)[k + 1]? = i.operands[k]? := rfl

end Sys2Proof

namespace Sys2Proof.Machine

section
variable {s t u : State} {i : Instr}

/-! ### The handlers use an operand word through its fetch alone -/

theorem State.branch_congr {w1 w : Word} (h : s.operand 1 w1 = s.operand 1 w) (taken : Bool) :
    s.branch taken w1 = s.branch taken w := by
  rw [State.branch, h, State.branch]

/-- Operand words whose checked fetch answers alike are not told apart by any instruction (40_cycle.md R123 item 1). -/
theorem exec_withOperands {w1 w2 : Word} (h1 : ∀ w, i.operands[0]? = some w → s.operand 1 w1 = s.operand 1 w)
    (h2 : ∀ w, i.operands[1]? = some w → s.operand 2 w2 = s.operand 2 w) : exec (i.withOperands w1 w2) s = exec i s := by
  cases i with
  | nop | halt | ret => rfl
  | add | sub | mul | div | inc | dec | in_ | get | out | put | push | pop | call =>
    simp only [Instr.withOperands, exec, execAdd, execSub, execMul, execDiv, execInc, execDec, execIn, execGet, execOut,
      execPut, execPush, execPop, execCall, h1 _ rfl]
  | mov | load | store | swap | cmp =>
    simp only [Instr.withOperands, exec, execMov, execLoad, execStore, execSwap, execCmp, h1 _ rfl, h2 _ rfl]
  | loop | jmp | jz | jnz | jgt =>
    simp only [Instr.withOperands, exec, execLoop, execJmp, execJz, execJnz, execJgt, State.branch_congr (h1 _ rfl)]

/-- A shown word stands for the operand in memory: where it may not be fetched, both fetches fail alike (log 12). -/
theorem State.ConfigOk.operand_shownWord (hc : s.ConfigOk) {k : Nat} {w : Word}
    (h : s.CanFetch k → s.memory.read (s.pc.toInt + k).toNat = w) : s.operand k (s.shownWord k) = s.operand k w := by
  by_cases hk : s.CanFetch k
  · rw [hc.shownWord_eq hk, h hk]
  · rw [State.operand_not hk, State.operand_not hk]

/-! ### The step -/

theorem step_of_not_running (hlive : s.live = true) (hstop : s.status ≠ .running) : step s = .next s := by
  simp only [step, hlive, if_true, if_neg hstop]

theorem step_of_not_canFetch (hlive : s.live = true) (hrun : s.status = .running) (hk : ¬s.CanFetch 0) :
    step s = .next (s.raise .invalidAddress) := by
  simp only [step, hlive, hrun, if_true, State.fetch_not hk, State.conclude_raised]

/-- A stack as large as its zone leaves nothing to fetch (00_scope.md R10; 10_state.md R35). -/
theorem State.ConfigOk.not_canFetch_of_full (hc : s.ConfigOk) (hfull : s.capacity = s.stackBottom) (k : Nat) :
    ¬s.CanFetch k := by
  have hlimit := hc.limit
  rw [hfull] at hlimit
  rintro ⟨hlo, hhi⟩
  omega

theorem step_of_words_in_memory (hc : s.ConfigOk) (hlive : s.live = true) (hrun : s.status = .running) (hk : s.CanFetch 0)
    (hmem : ∀ (k : Nat) (w : Word), (encode i)[k]? = some w → s.CanFetch k →
      s.memory.read (s.pc.toInt + k).toNat = w) : step s = exec i s := by
  have hop : s.shownWord 0 = BitVec.ofNat 32 i.opcode := by
    rw [hc.shownWord_eq hk, hmem 0 _ (encode_getElem?_zero i) hk]
  have hoperand (k : Nat) (w : Word) (hw : i.operands[k]? = some w) :
      s.operand (k + 1) (s.shownWord (k + 1)) = s.operand (k + 1) w :=
    hc.operand_shownWord (hmem (k + 1) w ((encode_getElem?_succ i k).trans hw))
  obtain ⟨rest, hd⟩ := decode_opcode_cons i (s.shownWord 1) (s.shownWord 2)
  rw [← hop] at hd
  rw [step_of_decode_ok hlive hrun (hc.fetch_eq hk) hd]
  exact exec_withOperands (hoperand 0) (hoperand 1)

/-- An instruction that is its opcode word alone needs that word alone in memory (30_encoding.md R91, format N). -/
theorem step_of_opcode_in_memory (hi : i.operands = []) (hc : s.ConfigOk) (hlive : s.live = true)
    (hrun : s.status = .running) (hk : s.CanFetch 0)
    (hop : s.memory.read s.pc.toInt.toNat = BitVec.ofNat 32 i.opcode) : step s = exec i s := by
  refine step_of_words_in_memory hc hlive hrun hk fun k w hw _ => ?_
  cases k with
  | zero =>
    cases (encode_getElem?_zero i).symm.trans hw
    rw [Int.natCast_zero, add_zero, hop]
  | succ k =>
    rw [encode_getElem?_succ, hi] at hw
    cases hw

theorem exec_nop (s : State) : exec .nop s = .next { s with pc := s.pc + 1 } := rfl

theorem exec_halt (s : State) : exec .halt s = .next { s with status := .halted, pc := s.pc + 1 } := rfl

theorem stepReturn_of_running (h : s.status = .running) : stepReturn s = 1 := if_pos h

theorem stepReturn_of_not_running (h : s.status ≠ .running) : stepReturn s = 0 := if_neg h

/-! ### The run -/

theorem runLoop_of_not_running (hstop : s.status ≠ .running) (budget k : Nat) : runLoop budget k s = .next (s, k) := by
  cases budget with
  | zero => rfl
  | succ budget => rw [runLoop, if_neg hstop]

theorem runLoop_succ_of_step (hrun : s.status = .running) (hstep : step s = .next t) (budget k : Nat) :
    runLoop (budget + 1) k s = runLoop budget (k + 1) t := by
  rw [runLoop, if_pos hrun, hstep]

/-- A loop with budget left that runs to its end on a running core makes one step and goes on from there. -/
theorem runLoop_succ_next {budget k m : Nat} (hrun : s.status = .running)
    (h : runLoop (budget + 1) k s = .next (u, m)) : ∃ t, step s = .next t ∧ runLoop budget (k + 1) t = .next (u, m) := by
  rw [runLoop, if_pos hrun] at h
  cases hstep : step s with
  | next t => exact ⟨t, rfl, by rwa [hstep] at h⟩
  | fault | refused => rw [hstep] at h; cases h

/-- The loop counts the steps it makes, at most its budget, and all of it when the core is still running at the end. -/
theorem runLoop_count : ∀ (budget k : Nat) (s : State) {m : Nat}, runLoop budget k s = .next (u, m) →
    k ≤ m ∧ m ≤ k + budget ∧ (u.status = .running → m = k + budget)
  | 0, k, s, m, h => by
    cases h
    exact ⟨le_rfl, le_rfl, fun _ => rfl⟩
  | budget + 1, k, s, m, h => by
    by_cases hrun : s.status = .running
    · obtain ⟨t, -, hloop⟩ := runLoop_succ_next hrun h
      obtain ⟨hlo, hhi, hall⟩ := runLoop_count budget (k + 1) t hloop
      exact ⟨by omega, by omega, fun hu => by rw [hall hu]; omega⟩
    · rw [runLoop_of_not_running hrun] at h
      cases h
      exact ⟨le_rfl, Nat.le_add_right k _, fun hu => absurd hu hrun⟩

theorem run_of_runLoop {n : Int} {m : Nat} (hlive : s.live = true) (hrun : s.status = .running)
    (h : runLoop n.toNat 0 s = .next (t, m)) : run n s = .next (t, runCount t m) := by
  simp only [run, hlive, hrun, if_true, h]

/-- Everything a run that answers a state can have done (40_cycle.md R128): nothing, or from 1 to `n` steps, and all `n` when
the core is still running. -/
theorem run_cases {n r : Int} (h : run n s = .next (u, r)) :
    ((s.status ≠ .running ∨ n ≤ 0) ∧ u = s ∧ r = 0) ∨
      (s.status = .running ∧ ∃ m : Nat, 1 ≤ m ∧ m ≤ n ∧ (u.status = .running → m = n) ∧ r = runCount u m) := by
  have hlive : s.live = true := by
    by_contra hdead
    rw [run_of_not_live (Bool.eq_false_of_not_eq_true hdead)] at h
    cases h
  by_cases hrun : s.status = .running
  · simp only [run, hlive, hrun, if_true] at h
    cases hloop : runLoop n.toNat 0 s with
    | fault | refused => rw [hloop] at h; cases h
    | next p =>
      obtain ⟨t, m⟩ := p
      rw [hloop] at h
      cases h
      cases hbudget : n.toNat with
      | zero =>
        rw [hbudget] at hloop
        cases hloop
        exact .inl ⟨.inr (by omega), rfl, by simp [runCount]⟩
      | succ budget =>
        rw [hbudget] at hloop
        obtain ⟨v, -, hrest⟩ := runLoop_succ_next hrun hloop
        obtain ⟨hlo, hhi, hall⟩ := runLoop_count budget 1 v hrest
        exact .inr ⟨hrun, m, hlo, by omega, fun hu => by have := hall hu; omega, rfl⟩
  · simp only [run, hlive, hrun, if_true, if_false] at h
    cases h
    exact .inl ⟨.inl hrun, rfl, rfl⟩

theorem runCount_faulted {c : Cause} (h : t.status = .faulted c) (k : Nat) : runCount t k = -k := by
  simp [runCount, h, Status.isFault]

theorem runCount_not_faulted (h : ∀ c, t.status ≠ .faulted c) (k : Nat) : runCount t k = k := by
  cases hst : t.status with
  | running | halted => simp [runCount, hst, Status.isFault]
  | faulted c => exact absurd hst (h c)

end

/-- Settles O5: the decoder reads the instruction of the opcode word with the operand words that are shown; where one of them
is not the word in memory, its fetch fails, and no handler tells them apart. -/
theorem stepRunsTheInstructionInMemory : Obligations.StepRunsTheInstructionInMemory :=
  fun _ _ => step_of_words_in_memory

/-- Settles O13: the word 1 is `halt`; the step after it finds the core stopped, and so does the loop of run. -/
theorem haltStopsTheCore : Obligations.HaltStopsTheCore := by
  have hstopped (s : State) : ({ s with status := .halted, pc := s.pc + 1 } : State).status ≠ .running := nofun
  refine ⟨fun s => ⟨exec_halt s, stepReturn_of_not_running (hstopped s), fun hlive =>
    step_of_not_running hlive (hstopped s)⟩, fun s n hc hlive hrun hk hop hn => ?_⟩
  have hstep := (step_of_opcode_in_memory (i := .halt) rfl hc hlive hrun hk hop).trans (exec_halt s)
  obtain ⟨budget, hbudget⟩ : ∃ budget, n.toNat = budget + 1 := ⟨n.toNat - 1, by omega⟩
  refine run_of_runLoop (m := 1) hlive hrun ?_
  rw [hbudget, runLoop_succ_of_step hrun hstep, runLoop_of_not_running (hstopped s)]

/-- Settles O57: a run that makes no step returns 0; one that makes `m` steps returns `-m` after a fault and `m` otherwise. -/
theorem runReportsHowItEnded : Obligations.RunReportsHowItEnded := by
  intro s u n r h
  rcases run_cases h with ⟨hnone, rfl, rfl⟩ | ⟨hrun, m, hm, hmn, hall, rfl⟩
  · refine ⟨iff_of_true rfl hnone, fun _ => rfl, iff_of_false (lt_irrefl 0) ?_, fun h0 => absurd h0 (lt_irrefl 0), by simp⟩
    rintro ⟨hrun, hn, -⟩
    exact hnone.elim (absurd hrun) (by omega)
  · have hsteps : ¬(s.status ≠ .running ∨ n ≤ 0) := by
      rintro (hstop | hn)
      · exact hstop hrun
      · omega
    by_cases hfault : ∃ c, u.status = .faulted c
    · obtain ⟨c, hu⟩ := hfault
      rw [runCount_faulted hu]
      exact ⟨iff_of_false (by omega) hsteps, fun _ => by omega, iff_of_true (by omega) ⟨hrun, by omega, c, hu⟩,
        fun _ => by omega, by omega⟩
    · rw [runCount_not_faulted fun c hu => hfault ⟨c, hu⟩]
      refine ⟨iff_of_false (by omega) hsteps, fun _ => by omega, iff_of_false (by omega) ?_, fun _ => ?_, by omega⟩
      · rintro ⟨-, -, hu⟩
        exact hfault hu
      · cases hu : u.status with
        | running => exact .inr ⟨rfl, hall hu⟩
        | halted => exact .inl rfl
        | faulted c => exact absurd ⟨c, hu⟩ hfault

/-- Settles O4: once the opcode fetch has passed, the step hands on to the handler of what is decoded. -/
theorem stepRunsTheDecodedInstruction : Obligations.StepRunsTheDecodedInstruction := by
  intro s i rest hc hlive hrun hk hd
  refine ⟨step_of_decode_ok hlive hrun (hc.fetch_eq hk) hd, fun k => ?_⟩
  split
  · exact hc.shownWord_eq ‹_›
  · exact State.shownWord_not ‹_›

/-- Settles O6: neither a stopped nor a destroyed core gets to its opcode fetch. -/
theorem stepOfAStoppedCoreDoesNothing : Obligations.StepOfAStoppedCoreDoesNothing :=
  ⟨fun _ hlive hstop => ⟨step_of_not_running hlive hstop, stepReturn_of_not_running hstop⟩, fun _ => step_of_not_live⟩

/-- Settles O7: the opcode fetch fails, always so where stackLimit is 0. -/
theorem unfetchablePcFaults : Obligations.UnfetchablePcFaults :=
  ⟨fun _ => step_of_not_canFetch,
    fun _ hc hlive hrun hfull => step_of_not_canFetch hlive hrun (hc.not_canFetch_of_full hfull 0)⟩

/-- Settles O12: the word 0 is `nop`, which leaves status as it is. -/
theorem nopAdvancesByOne : Obligations.NopAdvancesByOne :=
  ⟨exec_nop, fun s hc hlive hrun hk hop =>
    ⟨(step_of_opcode_in_memory (i := .nop) rfl hc hlive hrun hk hop).trans (exec_nop s), stepReturn_of_running hrun⟩⟩

end Sys2Proof.Machine
end

section
/-! ## Arithmetic on a named register (41_arithmetic.md R140 to R147) -/

namespace Sys2Proof.Machine

section
variable {s : State} {n : GReg}

/-- Format R with the index of a register: the fetch of the operand word and the reading of it both pass (30_encoding.md R91). -/
theorem State.ConfigOk.oneReg_index (h : s.ConfigOk) (h1 : s.CanFetch 1) (f : GReg → Check State) :
    s.conclude (do
      let w ← s.operand 1 n.index
      let r ← reg w
      f r) = s.conclude (f n) := by
  rw [h.operand_eq h1, Check.ok_bind, reg_index, Check.ok_bind]

theorem State.setMirrored_advance (s : State) (r : GReg) (v : Word) (k : Nat) :
    (s.setMirrored r v).advance k = { s.set r v with
      result := if s.extJmp then v else s.result
      pc := s.pc + BitVec.ofNat 32 k } := by
  cases r <;> rfl

/-- The shape all six arithmetic instructions share: a handler that computes `v` from the named register and ends in the
mirrored write of `v` to `dest` (41_arithmetic.md R147, D20). -/
theorem State.ConfigOk.oneReg_mirrored (h : s.ConfigOk) (h1 : s.CanFetch 1) (dest : GReg) (v : Word)
    {f : GReg → Check State} (hf : f n = .ok ((s.setMirrored dest v).advance 2)) :
    s.conclude (do
      let w ← s.operand 1 n.index
      let r ← reg w
      f r) = .next { s.set dest v with
        result := if s.extJmp then v else s.result
        pc := s.pc + 2 } := by
  rw [h.oneReg_index h1, hf, State.conclude_ok]
  exact congrArg _ (s.setMirrored_advance dest v 2)

end

/-- Settles O14: the three handlers differ in the exact operation alone, and their destination is A. -/
theorem addSubMulWrapTheExactResult : Obligations.AddSubMulWrapTheExactResult := fun s n hc h1 =>
  ⟨hc.oneReg_mirrored h1 .a (aluAdd s.regA (s.get n)) rfl,
    hc.oneReg_mirrored h1 .a (aluSub s.regA (s.get n)) rfl,
    hc.oneReg_mirrored h1 .a (aluMul s.regA (s.get n)) rfl⟩

/-- Settles O15: the divisor is checked before A is written; past the check the quotient is written as any other result. -/
theorem divTruncatesTowardZero : Obligations.DivTruncatesTowardZero := by
  intro s n hc h1
  refine ⟨fun hzero => ?_, fun hne => ?_⟩
  · have hfault : aluDiv s.regA (s.get n) = .error (.raised .divByZero) := aluDiv_error.mpr ⟨hzero, rfl⟩
    exact (hc.oneReg_index h1 _).trans (State.conclude_bind_raised hfault _)
  · refine hc.oneReg_mirrored h1 .a (wrap32 (s.regA.toInt.tdiv (s.get n).toInt)) ?_
    rw [aluDiv_ok.mpr ⟨hne, rfl⟩, Check.ok_bind, Check.pure_eq]

/-- Settles O16: the destination is the named register itself, whichever it is. -/
theorem incDecWriteAndMirror : Obligations.IncDecWriteAndMirror := fun s n hc h1 =>
  ⟨hc.oneReg_mirrored h1 n (aluInc (s.get n)) rfl, hc.oneReg_mirrored h1 n (aluDec (s.get n)) rfl⟩

end Sys2Proof.Machine
end

section
/-! ## Register moves (42_register_moves.md R160 to R162) -/

namespace Sys2Proof.Machine

section
variable {s : State}

/-- Format RI with the index of a register: both fetches and the reading of the register operand pass (30_encoding.md R91). -/
theorem State.ConfigOk.regImm_index (h : s.ConfigOk) (h1 : s.CanFetch 1) (h2 : s.CanFetch 2) (n : GReg) (imm : Word)
    (f : Word → GReg → Check State) :
    s.conclude (do
      let w ← s.operand 1 n.index
      let imm ← s.operand 2 imm
      let r ← reg w
      f imm r) = s.conclude (f imm n) := by
  rw [h.operand_eq h1, Check.ok_bind, h.operand_eq h2, Check.ok_bind, reg_index, Check.ok_bind]

/-- Format RR, for either reading of a register operand: `index` is `reg` or `regX`, and `word` its inverse. -/
theorem State.ConfigOk.twoReg_index {ι : Type} {index : Word → Check ι} {word : ι → Word}
    (hindex : ∀ x, index (word x) = .ok x) (h : s.ConfigOk) (h1 : s.CanFetch 1) (h2 : s.CanFetch 2) (x y : ι)
    (f : ι → ι → Check State) :
    s.conclude (do
      let a ← s.operand 1 (word x)
      let b ← s.operand 2 (word y)
      let p ← index a
      let q ← index b
      f p q) = s.conclude (f x y) := by
  rw [h.operand_eq h1, Check.ok_bind, h.operand_eq h2, Check.ok_bind, hindex, Check.ok_bind, hindex, Check.ok_bind]

theorem State.set_advance (s : State) (r : GReg) (v : Word) (k : Nat) :
    (s.set r v).advance k = { s.set r v with pc := s.pc + BitVec.ofNat 32 k } := by
  rw [State.advance, State.set_pc]

/-! ### The exchange of two registers -/

/-- The state with `x` and `y` exchanged, as `swap` writes it: both are read before either is written. -/
def State.exchange (s : State) (x y : GReg) : State := (s.set x (s.get y)).set y (s.get x)

theorem State.exchange_get_right (s : State) (x y : GReg) : (s.exchange x y).get y = s.get x :=
  State.get_set_same _ _ _

/-- Where `x` and `y` are one register, the second write puts back the value it had. -/
theorem State.exchange_get_left (s : State) (x y : GReg) : (s.exchange x y).get x = s.get y := by
  by_cases hxy : x = y
  · subst hxy
    exact s.exchange_get_right x x
  · rw [State.exchange, State.get_set_other _ _ hxy, State.get_set_same]

theorem State.exchange_get_other (s : State) {x y r : GReg} (hx : r ≠ x) (hy : r ≠ y) :
    (s.exchange x y).get r = s.get r := by
  rw [State.exchange, State.get_set_other _ _ hy, State.get_set_other _ _ hx]

/-- The exchange writes general registers alone, and the advance behind it pc alone. -/
theorem State.exchange_advance_frame (s : State) (x y : GReg) (k : Nat) :
    (s.exchange x y).advance k = { s with
      regA := (s.exchange x y).regA
      regB := (s.exchange x y).regB
      regC := (s.exchange x y).regC
      regD := (s.exchange x y).regD
      pc := s.pc + BitVec.ofNat 32 k } := by
  simp [State.advance, State.exchange]

theorem State.ConfigOk.exec_swap (h : s.ConfigOk) (h1 : s.CanFetch 1) (h2 : s.CanFetch 2) (x y : GReg) :
    exec (.swap x.index y.index) s = .next ((s.exchange x y).advance 3) :=
  h.twoReg_index reg_index h1 h2 x y fun p q => .ok ((s.exchange p q).advance 3)

end

/-- Settles O18: the exchanged state is the witness; what its registers hold is said of the exchange, before the advance. -/
theorem swapExchangesTwoRegisters : Obligations.SwapExchangesTwoRegisters := fun s x y hc h1 h2 =>
  ⟨(s.exchange x y).advance 3, hc.exec_swap h1 h2 x y,
    (State.advance_get _ x 3).trans (s.exchange_get_left x y),
    (State.advance_get _ y 3).trans (s.exchange_get_right x y),
    fun r hx hy => (State.advance_get _ r 3).trans (s.exchange_get_other hx hy),
    s.exchange_advance_frame x y 3⟩

/-- Settles O17: with both operand words fetched and the register named, the handler writes the register and advances. -/
theorem movStoresTheImmediate : Obligations.MovStoresTheImmediate := by
  intro s n imm hc h1 h2
  calc exec (.mov n.index imm) s
    _ = .next ((s.set n imm).advance 3) := hc.regImm_index h1 h2 n imm fun v r => .ok ((s.set r v).advance 3)
    _ = .next { s.set n imm with pc := s.pc + 3 } := congrArg _ (s.set_advance n imm 3)

end Sys2Proof.Machine
end

section
/-! ## The stack: push, pop, load, store (43_stack.md R170 to R176)

Inside the invariant every address the stack address calculator answers lies in the region, so each of the four has two ends:
its access, or InvalidStackOperation. -/

namespace Sys2Proof.Machine

section
variable {s : State} {n : GReg}

/-! ### A word pushed and a word popped -/

/-- A write at an address that is an exact integer: that word, and no other. -/
theorem Memory.read_write_toNat {x : Int} (hx : 0 ≤ x) (m : Memory) (v : Word) (a : Nat) :
    (m.write x.toNat v).read a = if (a : Int) = x then v else m.read a := by
  split
  next ha => rw [← ha, Int.toNat_natCast, Memory.read_write_same]
  next ha => exact Memory.read_write_other _ _ _ _ (by omega)

/-- The state with `v` in the next free slot and one word more on the stack (20_memory.md R68). -/
def State.pushed (s : State) (v : Word) : State :=
  { s with memory := s.memory.write (s.stackBottom.toInt - s.sn.toInt).toNat v, sn := s.sn + 1 }

/-- The state with one word fewer on the stack; the vacated word stays in memory (20_memory.md R69, D21). -/
def State.popped (s : State) : State := { s with sn := s.sn - 1 }

/-- The word in the top slot (20_memory.md R69). -/
def State.topWord (s : State) : Word := s.memory.read (s.stackBottom.toInt - s.sn.toInt + 1).toNat

theorem State.Inv.pushWord_eq (h : s.Inv) (hroom : s.sn.toInt < s.capacity.toInt) (v : Word) :
    s.pushWord v = .ok (s.pushed v) :=
  State.pushWord_ok.mpr ⟨hroom, h.config.slot_inside h.snNonneg h.snBounded, rfl⟩

theorem State.pushWord_full (hfull : s.capacity.toInt ≤ s.sn.toInt) (v : Word) :
    s.pushWord v = .error (.raised .invalidStackOperation) :=
  State.pushWord_error.mpr (.inl ⟨hfull, rfl⟩)

theorem State.Inv.popWord_eq (h : s.Inv) (hpos : 0 < s.sn.toInt) : s.popWord = .ok (s.topWord, s.popped) :=
  State.popWord_ok.mpr ⟨hpos, h.top_inside hpos, rfl, rfl⟩

theorem State.popWord_empty (hempty : s.sn.toInt ≤ 0) : s.popWord = .error (.raised .invalidStackOperation) :=
  State.popWord_error.mpr (.inl ⟨hempty, rfl⟩)

theorem State.pushed_sn_toInt (hroom : s.sn.toInt < s.capacity.toInt) (v : Word) :
    (s.pushed v).sn.toInt = s.sn.toInt + 1 :=
  toInt_add_one_of_lt hroom

theorem State.popped_sn_toInt (hpos : 0 < s.sn.toInt) : s.popped.sn.toInt = s.sn.toInt - 1 :=
  toInt_sub_one_of_pos hpos

theorem State.Inv.pushed_read (h : s.Inv) (v : Word) (a : Nat) :
    (s.pushed v).memory.read a = if (a : Int) = s.stackBottom.toInt - s.sn.toInt then v else s.memory.read a :=
  Memory.read_write_toNat (h.config.slot_inside h.snNonneg h.snBounded).1 s.memory v a

theorem State.Inv.pushed (h : s.Inv) (hroom : s.sn.toInt < s.capacity.toInt) (v : Word) : (s.pushed v).Inv :=
  h.pushWord (h.pushWord_eq hroom v)

/-- The slot that a push fills is the one a pop reads next. -/
theorem State.pushed_topWord (hroom : s.sn.toInt < s.capacity.toInt) (v : Word) : (s.pushed v).topWord = v := by
  have htop : s.stackBottom.toInt - (s.pushed v).sn.toInt + 1 = s.stackBottom.toInt - s.sn.toInt := by
    rw [State.pushed_sn_toInt hroom]
    omega
  calc (s.pushed v).topWord
    _ = (s.pushed v).memory.read (s.stackBottom.toInt - (s.pushed v).sn.toInt + 1).toNat := rfl
    _ = v := by rw [htop, State.pushed, Memory.read_write_same]

@[simp] theorem State.pushed_get (s : State) (v : Word) (r : GReg) : (s.pushed v).get r = s.get r := by
  cases r <;> rfl

@[simp] theorem State.popped_get (s : State) (r : GReg) : s.popped.get r = s.get r := by
  cases r <;> rfl

theorem State.popped_set_advance (s : State) (r : GReg) (v : Word) (k : Nat) :
    (s.popped.set r v).advance k = { s.set r v with sn := s.popped.sn, pc := s.pc + BitVec.ofNat 32 k } := by
  cases r <;> rfl

/-! ### push and pop -/

theorem State.Inv.exec_push (h : s.Inv) (h1 : s.CanFetch 1) (hroom : s.sn.toInt < s.capacity.toInt) :
    exec (.push n.index) s = .next ((s.pushed (s.get n)).advance 2) :=
  (h.config.oneReg_index h1 _).trans (by rw [h.pushWord_eq hroom, Check.ok_bind, Check.pure_eq, State.conclude_ok])

theorem State.Inv.exec_pop (h : s.Inv) (h1 : s.CanFetch 1) (hpos : 0 < s.sn.toInt) :
    exec (.pop n.index) s = .next ((s.popped.set n s.topWord).advance 2) :=
  (h.config.oneReg_index h1 _).trans (by rw [h.popWord_eq hpos, Check.ok_bind]; rfl)

/-! ### A pop behind a push -/

/-- The state after a push of `v` and a pop into `y` that stands at `p`. -/
def State.viaStack (s : State) (v p : Word) (y : GReg) : State :=
  (((s.pushed v).jumpTo p).popped.set y v).advance 2

theorem State.viaStack_get_same (s : State) (v p : Word) (y : GReg) : (s.viaStack v p y).get y = v := by
  rw [State.viaStack, State.advance_get, State.get_set_same]

theorem State.viaStack_get_other (s : State) (v p : Word) {y r : GReg} (hr : r ≠ y) :
    (s.viaStack v p y).get r = s.get r := by
  rw [State.viaStack, State.advance_get, State.get_set_other _ _ hr, State.popped_get, State.jumpTo_get, State.pushed_get]

theorem State.viaStack_sn (s : State) (v p : Word) (y : GReg) : (s.viaStack v p y).sn = s.sn := by
  rw [State.viaStack, State.advance_sn, State.set_sn]
  exact BitVec.add_sub_cancel s.sn 1

theorem State.viaStack_result (s : State) (v p : Word) (y : GReg) : (s.viaStack v p y).result = s.result := by
  rw [State.viaStack, State.advance_result, State.set_result]
  rfl

theorem State.Inv.exec_pop_pushed (h : s.Inv) (hroom : s.sn.toInt < s.capacity.toInt) (v p : Word)
    (hp : ((s.pushed v).jumpTo p).CanFetch 1) :
    exec (.pop n.index) ((s.pushed v).jumpTo p) = .next (s.viaStack v p n) := by
  have hpos : 0 < ((s.pushed v).jumpTo p).sn.toInt := by
    have := h.snNonneg
    rw [State.jumpTo_sn, State.pushed_sn_toInt hroom]
    omega
  have htop : ((s.pushed v).jumpTo p).topWord = v := State.pushed_topWord hroom v
  rw [((h.pushed hroom v).jumpTo p).exec_pop hp hpos, htop, State.viaStack]

/-! ### load and store -/

theorem State.Inv.exec_load (h : s.Inv) (h1 : s.CanFetch 1) (h2 : s.CanFetch 2) {imm : Word} {a : Int}
    (ha : s.indexedAddress imm = .ok a) :
    exec (.load n.index imm) s = .next ((s.set n (s.memory.read a.toNat)).advance 3) :=
  (h.config.regImm_index h1 h2 n imm _).trans (by
    rw [ha, Check.ok_bind, State.memRead_ok.mpr ⟨h.indexedAddress_inside ha, rfl⟩, Check.ok_bind, Check.pure_eq,
      State.conclude_ok])

theorem State.Inv.exec_store (h : s.Inv) (h1 : s.CanFetch 1) (h2 : s.CanFetch 2) {imm : Word} {a : Int}
    (ha : s.indexedAddress imm = .ok a) :
    exec (.store n.index imm) s =
      .next (({ s with memory := s.memory.write a.toNat (s.get n) } : State).advance 3) :=
  (h.config.regImm_index h1 h2 n imm _).trans (by
    rw [ha, Check.ok_bind, State.memWrite_ok.mpr ⟨h.indexedAddress_inside ha, rfl⟩, Check.ok_bind, Check.pure_eq,
      State.conclude_ok])

end

/-- Settles O19: the offset is checked before the read; the slot it names lies inside the region, so nothing else can fail. -/
theorem loadReadsTheIndexedSlot : Obligations.LoadReadsTheIndexedSlot := by
  intro s n imm h h1 h2
  refine ⟨fun hlive => ?_, fun hdead => ?_⟩
  · exact (h.exec_load h1 h2 (State.indexedAddress_ok.mpr ⟨hlive, rfl⟩)).trans (congrArg _ (s.set_advance n _ 3))
  · exact (h.config.regImm_index h1 h2 n imm _).trans
      (State.conclude_bind_raised (State.indexedAddress_error.mpr ⟨hdead, rfl⟩) _)

/-- Settles O20: the same check as for load, and the one word that is written is the one at the slot's address. -/
theorem storeWritesTheIndexedSlot : Obligations.StoreWritesTheIndexedSlot := by
  intro s n imm h h1 h2
  refine ⟨fun hlive => ?_, fun hdead => ?_⟩
  · have ha := State.indexedAddress_ok.mpr ⟨hlive, rfl⟩
    exact ⟨_, h.exec_store h1 h2 ha, rfl, Memory.read_write_toNat (h.indexedAddress_inside ha).1 s.memory (s.get n)⟩
  · exact (h.config.regImm_index h1 h2 n imm _).trans
      (State.conclude_bind_raised (State.indexedAddress_error.mpr ⟨hdead, rfl⟩) _)

/-- Settles O21: with room on the stack the pushed state is the witness; a full stack fails the push's one check. -/
theorem pushWritesTheNextFreeSlot : Obligations.PushWritesTheNextFreeSlot := by
  intro s n h h1
  refine ⟨fun hroom => ?_, fun hfull => ?_⟩
  · exact ⟨_, h.exec_push h1 hroom, rfl, State.pushed_sn_toInt hroom (s.get n), h.pushed_read (s.get n)⟩
  · exact (h.config.oneReg_index h1 _).trans (State.conclude_bind_raised (State.pushWord_full hfull (s.get n)) _)

/-- Settles O22: a word on the stack is read and counted off, with memory as it was; an empty stack fails the pop's
one check. -/
theorem popReadsTheTopSlot : Obligations.PopReadsTheTopSlot := by
  intro s n h h1
  refine ⟨fun hpos => ?_, fun hempty => ?_⟩
  · rw [h.exec_pop h1 hpos, State.popped_set_advance]
    exact ⟨_, rfl, rfl, State.popped_sn_toInt hpos⟩
  · exact (h.config.oneReg_index h1 _).trans (State.conclude_bind_raised (State.popWord_empty hempty) _)

/-- Settles O23: the push keeps the invariant and leaves a word on the stack, so the pop completes wherever it stands; what it
reads is the word pushed. -/
theorem pushThenPopCopiesARegister : Obligations.PushThenPopCopiesARegister := by
  intro s x y h h1 hroom
  refine ⟨_, h.exec_push h1 hroom, fun p hp => ⟨s.viaStack (s.get x) p y, h.exec_pop_pushed hroom (s.get x) p hp,
    s.viaStack_get_same _ p y, fun r hr => s.viaStack_get_other _ p hr, s.viaStack_sn _ p y, s.viaStack_result _ p y,
    fun hxy r => ?_⟩⟩
  by_cases hr : r = y
  · rw [hr, s.viaStack_get_same, hxy]
  · exact s.viaStack_get_other _ p hr

end Sys2Proof.Machine
end

section
/-! ## Input and output (44_io.md R190 to R197)

What `in` and `get` do is decided by the answer of the source; past the fetch and the reading of the register operand, no
other check stands before the request. -/

namespace Sys2Proof.Machine

section
variable {s : State} {n : GReg} {src : InputSource}

/-- A register write behind a request: the source that the request left stays, whichever register is written. -/
theorem State.withInput_set_advance (s : State) (src : InputSource) (r : GReg) (v : Word) (k : Nat) :
    (({ s with input := src } : State).set r v).advance k = { s.set r v with
      input := src
      pc := s.pc + BitVec.ofNat 32 k } := by
  cases r <;> rfl

/-- End of input writes C and then the target, so a target C ends at -1 (D14). -/
theorem State.withInput_setEndOfInput_advance (s : State) (src : InputSource) (r : GReg) (k : Nat) :
    (({ s with input := src } : State).setEndOfInput r).advance k = { (s.set .c 0).set r (-1) with
      input := src
      pc := s.pc + BitVec.ofNat 32 k } :=
  (s.set .c 0).withInput_set_advance src r (-1) k

/-! ### A request and its answer -/

/-- Format R with the index of a register, where what follows is a request that is answered. -/
theorem State.ConfigOk.oneReg_answered (h : s.ConfigOk) (h1 : s.CanFetch 1) {α : Type} {request : Check α} {answer : α}
    (hreq : request = .ok answer) (f : GReg → α → Check State) :
    s.conclude (do
      let w ← s.operand 1 n.index
      let r ← reg w
      let x ← request
      f r x) = s.conclude (f n answer) := by
  rw [h.oneReg_index h1, hreq, Check.ok_bind]

/-- A request that is never answered leaves the step unfinished (D24, log 8). -/
theorem State.ConfigOk.oneReg_unanswered (h : s.ConfigOk) (h1 : s.CanFetch 1) {α : Type} {request : Check α}
    (hreq : request = .error (.stuck .inputUnanswered)) (f : GReg → α → Check State) :
    s.conclude (do
      let w ← s.operand 1 n.index
      let r ← reg w
      let x ← request
      f r x) = .fault .inputUnanswered := by
  rw [h.oneReg_index h1, hreq, Check.error_bind, State.conclude_stuck]

/-! ### in -/

theorem fitsWord_iff {z : Int} : fitsWord z = true ↔ -2 ^ 31 ≤ z ∧ z ≤ 2 ^ 31 - 1 := by
  rw [fitsWord, Bool.and_eq_true, decide_eq_true_iff, decide_eq_true_iff]

/-- An integer is answered before its range is checked; both ends of the check keep the source that is left. -/
theorem State.ConfigOk.exec_in_int (h : s.ConfigOk) (h1 : s.CanFetch 1) {z : Int}
    (hread : s.input.readInt = some (.int z, src)) :
    exec (.in_ n.index) s = .next (if fitsWord z then (({ s with input := src } : State).set n (wrap32 z)).advance 2
      else ({ s with input := src } : State).raise .ioError) :=
  h.oneReg_answered h1 (State.readInt_ok.mpr ⟨src, hread, rfl⟩) _

/-! ### get and put -/

theorem zext8_eq_ofNat (b : Byte) : zext8 b = BitVec.ofNat 32 b.toNat := (BitVec.ofNat_toNat 32 b).symm

theorem State.ConfigOk.exec_put (h : s.ConfigOk) (h1 : s.CanFetch 1) :
    exec (.put n.index) s = s.conclude (if (s.get n).toInt < 0 ∨ (s.get n).toInt > 255
      then .error (.raised .illegalOperand)
      else .ok ((s.emit [(s.get n).setWidth 8]).advance 2)) :=
  h.oneReg_index h1 _

end

/-- Settles O24: a case for each answer of the source, an integer split by the range check. The input that an IOError
consumed stays consumed (R191). -/
theorem inFollowsTheSource : Obligations.InFollowsTheSource := by
  intro s n hc h1
  refine ⟨fun z src hread hfits => ?_, fun z src hread hrange => ?_, fun src hread => ?_, fun src hread => ?_,
    fun hread => ?_⟩
  · rw [hc.exec_in_int h1 hread, if_pos (fitsWord_iff.mpr hfits), State.withInput_set_advance]
    rfl
  · rw [hc.exec_in_int h1 hread, if_neg (mt fitsWord_iff.mp hrange)]
    rfl
  · exact hc.oneReg_answered h1 (State.readInt_ok.mpr ⟨src, hread, rfl⟩) _
  · exact (hc.oneReg_answered h1 (State.readInt_ok.mpr ⟨src, hread, rfl⟩) _).trans
      (congrArg _ (s.withInput_setEndOfInput_advance src n 2))
  · exact hc.oneReg_unanswered h1 (State.readInt_error.mpr ⟨hread, rfl⟩) _

/-- Settles O25: a case for each answer of the source; no check follows the request, so there is no IOError (D29). -/
theorem getFollowsTheSource : Obligations.GetFollowsTheSource := by
  intro s n hc h1
  refine ⟨fun b src hread => ?_, fun src hread => ?_, fun hread => ?_⟩
  · rw [← zext8_eq_ofNat]
    exact (hc.oneReg_answered h1 (State.readByte_ok.mpr ⟨src, hread, rfl⟩) _).trans
      (congrArg _ (s.withInput_set_advance src n (zext8 b) 2))
  · exact (hc.oneReg_answered h1 (State.readByte_ok.mpr ⟨src, hread, rfl⟩) _).trans
      (congrArg _ (s.withInput_setEndOfInput_advance src n 2))
  · exact hc.oneReg_unanswered h1 (State.readByte_error.mpr ⟨hread, rfl⟩) _

/-- Settles O28: the handler's range check is the complement of 0 to 255, and comes before the byte is emitted. -/
theorem putEmitsOneByte : Obligations.PutEmitsOneByte := by
  intro s n hc h1
  refine ⟨fun hbyte => ?_, fun hbyte => ?_⟩
  · rw [hc.exec_put h1, if_neg (by omega), State.conclude_ok, BitVec.ofNat_toNat]
    rfl
  · rw [hc.exec_put h1, if_pos (by omega), State.conclude_raised]
    rfl

/-- Settles O26: past the reading of the register operand `out` makes no check. -/
theorem outEmitsTheDecimalText : Obligations.OutEmitsTheDecimalText := fun _ n hc h1 =>
  hc.oneReg_index (n := n) h1 _

end Sys2Proof.Machine
end

section
/-! ## The integers of the reference device (44_io.md R192, D15) -/

namespace Sys2Proof.Machine

section

theorem isSpace_iff {b : Byte} : isSpace b = true ↔ b.toNat = 0x20 ∨ (0x09 ≤ b.toNat ∧ b.toNat ≤ 0x0D) := by
  simp [isSpace, BitVec.toNat_eq]

theorem isDigit_iff {b : Byte} : isDigit b = true ↔ 0x30 ≤ b.toNat ∧ b.toNat ≤ 0x39 := by
  simp [isDigit]

/-- Neither white space nor a sign (R192). -/
def IsPlain (b : Byte) : Prop := ¬isSpace b ∧ b ≠ 0x2B#8 ∧ b ≠ 0x2D#8

/-- The sign of an integer's text, or none (R192). -/
def IsOptionalSign (sign : List Byte) : Prop := sign = [] ∨ sign = [0x2B#8] ∨ sign = [0x2D#8]

theorem isPlain_of_isDigit {b : Byte} (h : isDigit b) : IsPlain b := by
  have hrange := isDigit_iff.mp h
  refine ⟨fun hspace => ?_, ?_, ?_⟩
  · have := isSpace_iff.mp hspace
    omega
  · rintro rfl
    simp at hrange
  · rintro rfl
    simp at hrange

/-! ### A run of bytes and what stands behind it -/

variable {p : Byte → Bool} {front rest : List Byte}

theorem dropWhile_append_of_head (hfront : ∀ b ∈ front, p b) (hrest : ∀ b ∈ rest.head?, ¬p b) :
    (front ++ rest).dropWhile p = rest := by
  rw [List.dropWhile_append_of_pos hfront]
  cases rest with
  | nil => rfl
  | cons b bs => exact List.dropWhile_cons_of_neg (hrest b rfl)

theorem takeWhile_append_of_head (hfront : ∀ b ∈ front, p b) (hrest : ∀ b ∈ rest.head?, ¬p b) :
    (front ++ rest).takeWhile p = front := by
  rw [List.takeWhile_append_of_pos hfront]
  cases rest with
  | nil => exact List.append_nil front
  | cons b bs => rw [List.takeWhile_cons_of_neg (hrest b rfl), List.append_nil]

/-! ### The sign -/

/-- Without a sign, the bytes must not begin with one. -/
theorem takeSign_append {sign bytes : List Byte} (hsign : IsOptionalSign sign)
    (hplain : sign = [] → ∀ b ∈ bytes.head?, IsPlain b) : takeSign (sign ++ bytes) = (decide (sign = [0x2D#8]), bytes) := by
  obtain rfl | rfl | rfl := hsign
  · cases bytes with
    | nil => rfl
    | cons b bs =>
      obtain ⟨-, hplus, hminus⟩ := hplain rfl b rfl
      simp [takeSign, hplus, hminus]
  · rfl
  · rfl

/-- White space is skipped up to a sign or, where there is none, up to a byte that is no white space. -/
theorem dropWhile_isSpace_append {sp sign bytes : List Byte} (hsp : ∀ b ∈ sp, isSpace b) (hsign : IsOptionalSign sign)
    (hplain : sign = [] → ∀ b ∈ bytes.head?, IsPlain b) :
    (sp ++ (sign ++ bytes)).dropWhile isSpace = sign ++ bytes := by
  refine dropWhile_append_of_head hsp ?_
  obtain rfl | rfl | rfl := hsign
  · exact fun b hb => (hplain rfl b hb).1
  · simp [isSpace]
  · simp [isSpace]

/-! ### The answers -/

theorem streamReadInt_space {sp : List Byte} (hsp : ∀ b ∈ sp, isSpace b) : streamReadInt sp = (.eof, []) := by
  rw [streamReadInt, List.dropWhile_eq_nil_iff.mpr hsp]

/-- Past the white space and the sign, the longest run of digits decides: an empty one is Malformed, and any other is the
integer, with the bytes after it left. -/
theorem streamReadInt_of_takeSign {unread text ds : List Byte} {neg : Bool} (hskip : unread.dropWhile isSpace = text)
    (htext : text ≠ []) (hsigned : takeSign text = (neg, ds ++ rest)) (hds : ∀ d ∈ ds, isDigit d)
    (hrest : ∀ b ∈ rest.head?, ¬isDigit b) :
    streamReadInt unread = if ds = [] then (.malformed, unread.drop (Config.malformedConsumed unread))
      else (.int (if neg then -(digitsValue ds : Int) else digitsValue ds), rest) := by
  obtain ⟨b, bs, rfl⟩ := List.exists_cons_of_ne_nil htext
  simp only [streamReadInt, hskip, hsigned, takeWhile_append_of_head hds hrest, dropWhile_append_of_head hds hrest]

/-- The text of R192 in its parts: white space, an optional sign, digits, and a byte that is no digit or the end. -/
theorem streamReadInt_append {unread sp sign ds : List Byte} (hunread : unread = sp ++ (sign ++ (ds ++ rest)))
    (hsp : ∀ b ∈ sp, isSpace b) (hsign : IsOptionalSign sign) (hds : ∀ d ∈ ds, isDigit d)
    (hrest : ∀ b ∈ rest.head?, ¬isDigit b) (hplain : sign = [] → ∀ b ∈ (ds ++ rest).head?, IsPlain b)
    (hne : sign ++ (ds ++ rest) ≠ []) :
    streamReadInt unread = if ds = [] then (.malformed, unread.drop (Config.malformedConsumed unread))
      else (.int (if sign = [0x2D#8] then -(digitsValue ds : Int) else digitsValue ds), rest) := by
  subst hunread
  simpa only [decide_eq_true_eq] using streamReadInt_of_takeSign (dropWhile_isSpace_append hsp hsign hplain) hne
    (takeSign_append hsign hplain) hds hrest

/-- A text that ends where its digits should begin. -/
theorem InputSource.readInt_malformed {sp sign : List Byte} (hsp : ∀ b ∈ sp, isSpace b)
    (hsign : IsOptionalSign sign) (hrest : ∀ b ∈ rest.head?, ¬isDigit b)
    (hplain : sign = [] → ∀ b ∈ rest.head?, IsPlain b) (hne : sign ++ rest ≠ []) :
    ∃ left, (InputSource.stream (sp ++ (sign ++ rest))).readInt = some (.malformed, .stream left) := by
  have hread := streamReadInt_append (ds := []) rfl hsp hsign (List.forall_mem_nil _) hrest hplain hne
  rw [List.nil_append, if_pos rfl] at hread
  rw [InputSource.readInt, hread]
  exact ⟨_, rfl⟩

/-- A text with digits: the first of them ends the white space where there is no sign. -/
theorem InputSource.readInt_int {sp sign ds : List Byte} (hsp : ∀ b ∈ sp, isSpace b)
    (hsign : IsOptionalSign sign) (hds : ∀ d ∈ ds, isDigit d)
    (hrest : ∀ b ∈ rest.head?, ¬isDigit b) (hne : ds ≠ []) :
    (InputSource.stream (sp ++ (sign ++ (ds ++ rest)))).readInt =
      some (.int ((if sign = [0x2D#8] then -1 else 1) * digitsValue ds), .stream rest) := by
  have hplain : ∀ b ∈ (ds ++ rest).head?, IsPlain b := fun b hb => by
    obtain ⟨d, ds, rfl⟩ := List.exists_cons_of_ne_nil hne
    obtain rfl : d = b := Option.some.inj hb
    exact isPlain_of_isDigit (hds d List.mem_cons_self)
  have hread := streamReadInt_append rfl hsp hsign hds hrest (fun _ => hplain) (by simp [hne])
  rw [InputSource.readInt, hread, if_neg hne, ite_mul, neg_one_mul, one_mul]

end

/-- Settles O29: the two Malformed forms are one, an empty run of digits behind an optional sign; where there is no sign, a
digit or the offending byte is what shows that the white space has ended. -/
theorem referenceDeviceReadsIntegers : Obligations.ReferenceDeviceReadsIntegers := by
  simp only [Obligations.ReferenceDeviceReadsIntegers, ← isSpace_iff, ← isDigit_iff, List.append_assoc]
  refine ⟨fun sp hsp => ?_, fun sp sign ds rest hsp hsign hds hrest => ⟨?_, ?_⟩,
    fun sp rest b hsp hspace hplus hminus hdigit => ?_⟩
  · rw [InputSource.readInt, streamReadInt_space hsp]
  · exact InputSource.readInt_int hsp hsign hds hrest
  · rintro rfl hsigned
    exact InputSource.readInt_malformed hsp hsign hrest (fun hnone => absurd hnone hsigned) (by simp [hsigned])
  · refine InputSource.readInt_malformed (sign := []) hsp (.inl rfl) ?_ (fun _ => ?_) (List.cons_ne_nil b rest)
    · rintro _ ⟨⟩
      exact hdigit
    · rintro _ ⟨⟩
      exact ⟨hspace, hplus, hminus⟩

end Sys2Proof.Machine
end

section
/-! ## Transfers of control (45_control_flow.md R210, R211)

A conditional transfer has three ends: not taken, taken, and taken where the operand word may not be fetched. They are said
once of `State.branch`, for any condition; `loop` adds its own condition. -/

namespace Sys2Proof.Machine

section
variable {s : State} {taken : Bool}

/-- Not taken, the operand word is not looked at: there is no hypothesis on its fetch (R210 item 5). -/
theorem State.conclude_branch_not_taken (h : taken = false) (target : Word) :
    s.conclude (s.branch taken target) = .next { s with pc := s.pc + 2 } := by
  rw [State.branch_ok.mpr (.inr ⟨h, rfl⟩), State.conclude_ok]
  rfl

/-- The target is assigned as it stands and is not checked (R210 items 1 and 4, D13). -/
theorem State.ConfigOk.conclude_branch_taken (hc : s.ConfigOk) (h : taken = true) (h1 : s.CanFetch 1) (target : Word) :
    s.conclude (s.branch taken target) = .next { s with pc := target } := by
  rw [State.branch_ok.mpr (.inl ⟨h, ⟨h1, hc.fetch_lt h1⟩, rfl⟩), State.conclude_ok]
  rfl

/-- The one fault of a transfer is that of its operand fetch, with pc kept (D12). -/
theorem State.conclude_branch_unfetchable (h : taken = true) (h1 : ¬s.CanFetch 1) (target : Word) :
    s.conclude (s.branch taken target) = .next { s with status := .faulted .invalidAddress } := by
  rw [State.branch_error.mpr ⟨h, State.fetch_not h1⟩, State.conclude_raised]
  rfl

/-- The test is of the signed value, which is 0 for the word 0 alone; a negative C jumps (R211). -/
theorem State.condLoop_iff : s.condLoop = true ↔ s.regC ≠ 0 := by
  rw [State.condLoop, decide_eq_true_iff]
  exact not_congr (BitVec.toInt_inj (y := 0))

theorem State.condLoop_eq_false (h : s.regC = 0) : s.condLoop = false :=
  Bool.eq_false_iff.mpr (mt State.condLoop_iff.mp (not_not_intro h))

end

/-- Settles O31: `loop` is the conditional transfer on C, with one clause for each end of a transfer. -/
theorem loopJumpsWhileCIsNotZero : Obligations.LoopJumpsWhileCIsNotZero := by
  intro s target hc
  refine ⟨fun hzero => ?_, fun hne h1 => ?_, fun hne h1 => ?_⟩
  · exact State.conclude_branch_not_taken (State.condLoop_eq_false hzero) target
  · exact hc.conclude_branch_taken (State.condLoop_iff.mpr hne) h1 target
  · exact State.conclude_branch_unfetchable (State.condLoop_iff.mpr hne) h1 target

end Sys2Proof.Machine
end

section
/-! ## Comparison and conditional jumps (46_ext_jump_compare.md R220 to R226)

The five instructions begin with the same recognition, which passes under EXT_JMP. Behind it the four jumps are conditional
transfers, each on its own condition; the ends of a transfer are those said of `State.branch` above. -/

namespace Sys2Proof.Machine

section
variable {s : State}

theorem State.conclude_extJmp (hj : s.extJmp = true) (r : Check State) :
    s.conclude (do
      s.recognise .extJmp
      r) = s.conclude r := by
  have hrec : s.recognise .extJmp = .ok () := State.recognise_ok.mpr ⟨fun _ => hj, nofun⟩
  rw [hrec, Check.ok_bind]

/-! ### cmp -/

/-- Under EXT_JMP a write to result takes effect (10_state.md R29). -/
theorem State.setResult_advance (hj : s.extJmp = true) (v : Word) (k : Nat) :
    (s.setResult v).advance k = { s with result := v, pc := s.pc + BitVec.ofNat 32 k } := by
  rw [State.setResult, if_pos hj, State.advance]

/-- Both sources are read in the state the step began with, so an operand 4 is the old result (R221). -/
theorem State.ConfigOk.exec_cmp (h : s.ConfigOk) (hj : s.extJmp = true) (h1 : s.CanFetch 1) (h2 : s.CanFetch 2)
    (x y : Source) :
    exec (.cmp x.index y.index) s = .next ((s.setResult (aluSub (s.source x) (s.source y))).advance 3) :=
  (State.conclude_extJmp hj _).trans
    (h.twoReg_index regX_index h1 h2 x y fun p q => .ok ((s.setResult (aluSub (s.source p) (s.source q))).advance 3))

/-! ### The jumps -/

/-- jmp is the transfer whose condition always holds (R223). -/
theorem exec_jmp (hj : s.extJmp = true) (target : Word) :
    exec (.jmp target) s = s.conclude (s.branch (decide True) target) :=
  State.conclude_extJmp hj _

theorem exec_jz (hj : s.extJmp = true) (target : Word) :
    exec (.jz target) s = s.conclude (s.branch (decide (s.result.toInt = 0)) target) :=
  State.conclude_extJmp hj _

theorem exec_jnz (hj : s.extJmp = true) (target : Word) :
    exec (.jnz target) s = s.conclude (s.branch (decide (s.result.toInt ≠ 0)) target) :=
  State.conclude_extJmp hj _

theorem exec_jgt (hj : s.extJmp = true) (target : Word) :
    exec (.jgt target) s = s.conclude (s.branch (decide (0 < s.result.toInt)) target) :=
  State.conclude_extJmp hj _

/-- The three ends of an instruction that is a transfer on the condition `p`: taken, taken with the operand word unfetchable,
and not taken. -/
theorem State.ConfigOk.transfer_ends (hc : s.ConfigOk) {i : Instr} {p : Prop} [Decidable p] {target : Word}
    (hi : exec i s = s.conclude (s.branch (decide p) target)) :
    (s.CanFetch 1 → p → exec i s = .next { s with pc := target }) ∧
    (¬s.CanFetch 1 → p → exec i s = .next { s with status := .faulted .invalidAddress }) ∧
    (¬p → exec i s = .next { s with pc := s.pc + 2 }) := by
  refine ⟨fun h1 hp => ?_, fun h1 hp => ?_, fun hp => ?_⟩
  · exact hi.trans (hc.conclude_branch_taken (decide_eq_true hp) h1 target)
  · exact hi.trans (State.conclude_branch_unfetchable (decide_eq_true hp) h1 target)
  · exact hi.trans (State.conclude_branch_not_taken (decide_eq_false hp) target)

end

/-- Settles O32: the handler's one write is that of the wrapped difference to result. -/
theorem cmpWritesTheDifference : Obligations.CmpWritesTheDifference := fun s x y hc hj h1 h2 =>
  (hc.exec_cmp hj h1 h2 x y).trans (congrArg _ (State.setResult_advance hj (aluSub (s.source x) (s.source y)) 3))

/-- Settles O33: each jump has the three ends of a transfer; that of jmp not taken cannot occur. -/
theorem jumpsFollowTheirConditions : Obligations.JumpsFollowTheirConditions := by
  intro s target hc hj
  obtain ⟨jmpTaken, jmpFault, -⟩ := hc.transfer_ends (exec_jmp hj target)
  obtain ⟨jzTaken, jzFault, jzNot⟩ := hc.transfer_ends (exec_jz hj target)
  obtain ⟨jnzTaken, jnzFault, jnzNot⟩ := hc.transfer_ends (exec_jnz hj target)
  obtain ⟨jgtTaken, jgtFault, jgtNot⟩ := hc.transfer_ends (exec_jgt hj target)
  refine ⟨fun h1 => ?taken, fun h1 => ?unfetchable, jzNot, fun hzero => ?jnz, fun hle => ?jgt⟩
  case taken => exact ⟨jmpTaken h1 trivial, jzTaken h1, jnzTaken h1, jgtTaken h1⟩
  case unfetchable => exact ⟨jmpFault h1 trivial, jzFault h1, jnzFault h1, jgtFault h1⟩
  case jnz => exact jnzNot (not_not_intro hzero)
  case jgt => exact jgtNot (not_lt.mpr hle)

end Sys2Proof.Machine
end

section
/-! ## Where a step can write: the slots alone, and result under EXT_JMP (10_state.md R29; 20_memory.md R65, R73, R81)

Which instruction writes memory, and at which address, is `memoryWriters`; that the address is a slot is the check that the
instruction makes before it writes. -/

namespace Sys2Proof.Machine

section
variable {s t : State} {i : Instr} {a : Nat}

/-- `a` is the address of a stack slot: above the guard word at stackLimit and at most stackBottom (20_memory.md R66, R73). -/
def State.IsSlot (s : State) (a : Int) : Prop := s.stackLimit.toInt < a ∧ a ≤ s.stackBottom.toInt

theorem State.Inv.isSlot_of_pushWord {v : Word} (h : s.Inv) (hp : s.pushWord v = .ok t) :
    s.IsSlot (s.stackBottom.toInt - s.sn.toInt) := by
  obtain ⟨hroom, -, -⟩ := State.pushWord_ok.mp hp
  obtain ⟨-, hlo, hhi⟩ := (stackAccessesStayInTheSlots s h).1 _ (State.pushAddress_ok.mpr ⟨hroom, rfl⟩)
  exact ⟨by omega, hhi⟩

theorem State.Inv.isSlot_of_indexedAddress {imm : Word} {x : Int} (h : s.Inv) (hx : s.indexedAddress imm = .ok x) :
    s.IsSlot x := by
  obtain ⟨hlo, hx0, hhi⟩ := (stackAccessesStayInTheSlots s h).2 x (.inr ⟨imm, hx⟩)
  exact ⟨by omega, hhi⟩

/-- An instruction changes no word of memory but one in a slot. -/
theorem exec_writes_isSlot (h : s.Inv) (he : exec i s = .next t) (hne : t.memory.read a ≠ s.memory.read a) :
    s.IsSlot a := by
  have hwrite := memoryWriters i s t a he hne
  rcases exec_cases he with hi | ⟨c, -, rfl⟩ | ⟨w, answer, src, -, -, rfl⟩
  · cases i with
    | push w =>
      obtain ⟨n, u, -, hu, -⟩ := hi
      exact hwrite ▸ h.isSlot_of_pushWord hu
    | call target =>
      obtain ⟨-, u, hu, -⟩ := hi
      exact hwrite ▸ h.isSlot_of_pushWord hu
    | store w imm =>
      obtain ⟨n, x, u, -, hx, -, -⟩ := hi
      have hslot := h.isSlot_of_indexedAddress hx
      rw [(State.indexedAddress_ok.mp hx).2] at hslot
      exact hwrite ▸ hslot
    | _ => exact hwrite.elim
  · exact absurd rfl hne
  · exact absurd rfl hne

theorem step_writes_isSlot (h : s.Inv) (hs : step s = .next t) (hne : t.memory.read a ≠ s.memory.read a) :
    s.IsSlot a := by
  obtain ⟨-, ⟨-, rfl⟩ | ⟨-, -, rfl⟩ | ⟨-, -, -, rfl⟩ | ⟨-, -, i, rest, -, he⟩⟩ := step_cases hs
  · exact absurd rfl hne
  · exact absurd rfl hne
  · exact absurd rfl hne
  · exact exec_writes_isSlot h he hne

/-! ### result -/

/-- A mirrored write that changes result leaves in it what it wrote to the register (41_arithmetic.md R147). -/
theorem State.setMirrored_result_ne {r : GReg} {v : Word} (hne : (s.setMirrored r v).result ≠ s.result) :
    s.extJmp = true ∧ (s.setMirrored r v).result = (s.setMirrored r v).get r := by
  have hext : s.extJmp = true := by
    by_contra hoff
    exact hne ((s.setMirrored_result r v).trans (if_neg hoff))
  exact ⟨hext, by rw [State.setMirrored_result, State.setMirrored_get_same, if_pos hext]⟩

end

/-- Settles O46: a changed word lies in a slot, and the slots lie above stackLimit and at or below stackBottom. -/
theorem stepLeavesCodeAndGuardWordAlone : Obligations.StepLeavesCodeAndGuardWordAlone := by
  intro s t a h hs hout
  by_contra hne
  obtain ⟨hlo, hhi⟩ := step_writes_isSlot h hs hne
  omega

/-- Settles O39: the mirrored write and the write of cmp are the only ones to result; the other instructions leave it. -/
theorem resultWriters : Obligations.ResultWriters := by
  intro i s t h hne
  rcases exec_cases h with hi | ⟨c, -, rfl⟩ | ⟨w, answer, src, -, -, rfl⟩
  · cases i with
    | add w | sub w | mul w => obtain ⟨n, -, rfl⟩ := hi; exact State.setMirrored_result_ne hne
    | div w => obtain ⟨n, q, -, -, rfl⟩ := hi; exact State.setMirrored_result_ne hne
    | inc w | dec w =>
      obtain ⟨n, rfl, rfl⟩ := hi
      obtain ⟨hext, hmirror⟩ := State.setMirrored_result_ne hne
      exact ⟨hext, n, rfl, hmirror.trans (State.advance_get _ n 2).symm⟩
    | cmp w1 w2 => obtain ⟨x, y, -, -, hext, -⟩ := hi; exact ⟨hext, trivial⟩
    | nop | halt => obtain rfl := hi; exact absurd rfl hne
    | mov w imm => obtain ⟨n, -, rfl⟩ := hi; exact absurd (State.set_result ..) hne
    | out w | put w => obtain ⟨n, -, rfl⟩ := hi; exact absurd rfl hne
    | load w imm => obtain ⟨n, a, v, -, -, -, rfl⟩ := hi; exact absurd (State.set_result ..) hne
    | store w imm =>
      obtain ⟨n, a, u, -, -, hu, rfl⟩ := hi
      obtain ⟨-, rfl⟩ := State.memWrite_ok.mp hu
      exact absurd rfl hne
    | in_ w =>
      obtain ⟨n, src, -, ⟨z, -, -, rfl⟩ | ⟨-, rfl⟩⟩ := hi <;> exact absurd (by simp [State.setEndOfInput]) hne
    | get w =>
      obtain ⟨n, src, -, ⟨b, -, rfl⟩ | ⟨-, rfl⟩⟩ := hi <;> exact absurd (by simp [State.setEndOfInput]) hne
    | swap w1 w2 => obtain ⟨x, y, -, -, rfl⟩ := hi; exact absurd (by simp) hne
    | push w =>
      obtain ⟨n, u, -, hu, rfl⟩ := hi
      obtain ⟨-, -, rfl⟩ := State.pushWord_ok.mp hu
      exact absurd rfl hne
    | pop w =>
      obtain ⟨n, v, u, -, hu, rfl⟩ := hi
      obtain ⟨-, -, -, rfl⟩ := State.popWord_ok.mp hu
      exact absurd (State.set_result ..) hne
    | loop target => obtain rfl := State.branch_writes hi; exact absurd rfl hne
    | jmp target | jz target | jnz target | jgt target => obtain rfl := State.branch_writes hi.2; exact absurd rfl hne
    | call target =>
      obtain ⟨-, u, hu, rfl⟩ := hi
      obtain ⟨-, -, rfl⟩ := State.pushWord_ok.mp hu
      exact absurd rfl hne
    | ret =>
      obtain ⟨-, v, u, hu, rfl⟩ := hi
      obtain ⟨-, -, -, rfl⟩ := State.popWord_ok.mp hu
      exact absurd rfl hne
  · exact absurd rfl hne
  · exact absurd rfl hne

end Sys2Proof.Machine
end

section
/-! ## Faults: a step that faults, a disabled extension, an operand out of the fetch bound (30_encoding.md R96; 40_cycle.md
R123; 60_exceptions.md R252 to R256) -/

namespace Sys2Proof.Machine

section
variable {s : State}

/-- A handler that begins with the fetch of an operand word outside the fetch bound ends there (D10). -/
theorem State.conclude_operand_not {k : Nat} (hk : ¬s.CanFetch k) (w : Word) (f : Word → Check State) :
    s.conclude (do
      let w ← s.operand k w
      f w) = .next (s.raise .invalidAddress) :=
  State.conclude_bind_raised (State.operand_not hk w) f

/-- Formats RI and RR: whichever of the two operand words cannot be fetched, InvalidAddress comes before what follows. -/
theorem State.ConfigOk.twoOperands_unfetchable (h : s.ConfigOk) (hk : ¬s.CanFetch 1 ∨ ¬s.CanFetch 2) (w1 w2 : Word)
    (f : Word → Word → Check State) :
    s.conclude (do
      let w1 ← s.operand 1 w1
      let w2 ← s.operand 2 w2
      f w1 w2) = .next (s.raise .invalidAddress) := by
  by_cases h1 : s.CanFetch 1
  · rw [h.operand_eq h1, Check.ok_bind]
    exact State.conclude_operand_not (hk.resolve_left (not_not_intro h1)) w2 _
  · exact State.conclude_operand_not h1 w1 _

theorem State.conclude_extCall (hx : s.extCall = true) (r : Check State) :
    s.conclude (do
      s.recognise .extCall
      r) = s.conclude r := by
  have hrec : s.recognise .extCall = .ok () := State.recognise_ok.mpr ⟨nofun, fun _ => hx⟩
  rw [hrec, Check.ok_bind]

/-- Where a fault of a step comes from: it was raised in the state the step began with, or it is the IOError of an `in`, raised
behind its request (60_exceptions.md R251, R255). A completed instruction leaves no fault. -/
theorem step_faulted {t : State} {c : Cause} (hrun : s.status = .running) (hs : step s = .next t)
    (hfault : t.status = .faulted c) :
    (c ≠ .ioError ∧ t = s.raise c) ∨
      (c = .ioError ∧ ∃ w rest answer src, decode s.shownWords = .ok (.in_ w, rest) ∧
        s.input.readInt = some (answer, src) ∧ t = ({ s with input := src } : State).raise .ioError) := by
  obtain ⟨-, ⟨hstop, -⟩ | ⟨-, -, rfl⟩ | ⟨-, -, -, rfl⟩ | ⟨-, -, i, rest, hd, he⟩⟩ := step_cases hs
  · exact absurd hrun hstop
  · cases hfault
    exact .inl ⟨nofun, rfl⟩
  · cases hfault
    exact .inl ⟨nofun, rfl⟩
  · rcases exec_cases he with hi | ⟨x, hx, rfl⟩ | ⟨w, answer, src, rfl, hread, rfl⟩
    · exact absurd hfault (hi.status_ne_faulted hrun c)
    · cases hfault
      exact .inl ⟨hx, rfl⟩
    · cases hfault
      exact .inr ⟨rfl, w, rest, answer, src, hd, hread, rfl⟩

end

/-- Settles O9: the extension check comes first in the handler of each instruction that needs an extension. -/
theorem disabledExtensionFaults : Obligations.DisabledExtensionFaults :=
  fun _ _ hoff => exec_of_not_recognised (State.recognise_error.mpr ⟨hoff, rfl⟩)

/-- Settles O10: each handler fetches its operand words behind the extension check, which passes, and before anything else. -/
theorem unfetchableOperandFaultsFirst : Obligations.UnfetchableOperandFaultsFirst := by
  intro i s k hc hjmp hcall hcond hk1 hk hfetch
  have hone (hlen : i.lengthWords = 2) : ¬s.CanFetch 1 := by
    obtain rfl : k = 1 := by omega
    exact hfetch
  have htwo (hlen : i.lengthWords = 3) : ¬s.CanFetch 1 ∨ ¬s.CanFetch 2 := by
    obtain rfl | rfl : k = 1 ∨ k = 2 := by omega
    · exact .inl hfetch
    · exact .inr hfetch
  cases i with
  | nop | halt | ret => exact absurd hk (not_lt.mpr hk1)
  | add | sub | mul | div | inc | dec | in_ | get | out | put | push | pop =>
    exact State.conclude_operand_not (hone rfl) _ _
  | mov | load | store | swap => exact hc.twoOperands_unfetchable (htwo rfl) _ _ _
  | cmp => exact (State.conclude_extJmp (hjmp rfl) _).trans (hc.twoOperands_unfetchable (htwo rfl) _ _ _)
  | jmp target => exact (exec_jmp (hjmp rfl) target).trans (State.conclude_branch_unfetchable rfl (hone rfl) target)
  | call => exact (State.conclude_extCall (hcall rfl) _).trans (State.conclude_operand_not (hone rfl) _ _)
  | loop target => obtain ⟨hne, -⟩ := hcond target; exact absurd rfl hne
  | jz target => obtain ⟨-, hne, -⟩ := hcond target; exact absurd rfl hne
  | jnz target => obtain ⟨-, -, hne, -⟩ := hcond target; exact absurd rfl hne
  | jgt target => obtain ⟨-, -, -, hne⟩ := hcond target; exact absurd rfl hne

/-- Settles O44: a fault writes status alone, and before an IOError the `in` wrote the input that its request left. -/
theorem faultingStepWritesOnlyStatus : Obligations.FaultingStepWritesOnlyStatus := by
  intro s t c hrun hs hfault
  have hreturn : stepReturn t = 0 := stepReturn_of_not_running (by rw [hfault]; nofun)
  rcases step_faulted hrun hs hfault with ⟨hc, rfl⟩ | ⟨rfl, w, rest, answer, src, hd, hread, rfl⟩
  · exact ⟨rfl, hreturn, fun _ => rfl, fun hio => absurd hio hc⟩
  · exact ⟨rfl, hreturn, fun hio => absurd rfl hio, fun _ => ⟨w, rest, answer, hd, hread⟩⟩

end Sys2Proof.Machine
end

section
/-! ## call and ret (47_ext_call_return.md R240 to R242)

Past the extension check and the fetch, call is a push of pc + 2 and ret a pop to pc; `State.pushed` and `State.popped` say
what those leave. -/

namespace Sys2Proof.Machine

section
variable {s : State} {target : Word}

theorem State.ConfigOk.exec_call_eq (hc : s.ConfigOk) (hx : s.extCall = true) (h1 : s.CanFetch 1) (target : Word) :
    exec (.call target) s = s.conclude (do
      let u ← s.pushWord (s.pc + 2)
      pure (u.jumpTo target)) :=
  (State.conclude_extCall hx _).trans (by rw [hc.operand_eq h1, Check.ok_bind])

theorem State.Inv.exec_call (h : s.Inv) (hx : s.extCall = true) (h1 : s.CanFetch 1) (hroom : s.sn.toInt < s.capacity.toInt)
    (target : Word) : exec (.call target) s = .next ((s.pushed (s.pc + 2)).jumpTo target) := by
  rw [h.config.exec_call_eq hx h1, h.pushWord_eq hroom, Check.ok_bind, Check.pure_eq, State.conclude_ok]

theorem State.Inv.exec_ret (h : s.Inv) (hx : s.extCall = true) (hpos : 0 < s.sn.toInt) :
    exec .ret s = .next (s.popped.jumpTo s.topWord) :=
  (State.conclude_extCall hx _).trans (by rw [h.popWord_eq hpos, Check.ok_bind]; rfl)

/-- A pop counts off the word that a push counted. -/
theorem State.pushed_jumpTo_popped_sn (s : State) (v p : Word) : ((s.pushed v).jumpTo p).popped.sn = s.sn :=
  BitVec.add_sub_cancel s.sn 1

/-- A ret that stands at `p` behind a push of `v` goes to `v` and keeps what the push left but for sn. -/
theorem State.Inv.exec_ret_pushed (h : s.Inv) (hx : s.extCall = true) (hroom : s.sn.toInt < s.capacity.toInt) (v p : Word) :
    exec .ret ((s.pushed v).jumpTo p) = .next { s.pushed v with pc := v, sn := s.sn } := by
  have hpos : 0 < ((s.pushed v).jumpTo p).sn.toInt := by
    have := h.snNonneg
    rw [State.jumpTo_sn, State.pushed_sn_toInt hroom]
    omega
  have htop : ((s.pushed v).jumpTo p).topWord = v := State.pushed_topWord hroom v
  rw [((h.pushed hroom v).jumpTo p).exec_ret hx hpos, htop, ← s.pushed_jumpTo_popped_sn v p]
  rfl

end

/-- Settles O34: with room on the stack the pushed state, sent to the target, is the witness; a full stack fails the push's
one check. -/
theorem callPushesTheReturnAddress : Obligations.CallPushesTheReturnAddress := by
  intro s target h hx h1
  refine ⟨fun hroom => ?_, fun hfull => ?_⟩
  · exact ⟨_, h.exec_call hx h1 hroom target, rfl, State.pushed_sn_toInt hroom (s.pc + 2), h.pushed_read (s.pc + 2)⟩
  · exact (h.config.exec_call_eq hx h1 target).trans (State.conclude_bind_raised (State.pushWord_full hfull (s.pc + 2)) _)

/-- Settles O35: a word on the stack is read, counted off and assigned to pc; an empty stack fails the pop's one check. -/
theorem retPopsThePc : Obligations.RetPopsThePc := by
  intro s h hx
  refine ⟨fun hpos => ?_, fun hempty => ?_⟩
  · exact ⟨_, h.exec_ret hx hpos, State.popped_sn_toInt hpos, rfl⟩
  · exact (State.conclude_extCall hx _).trans (State.conclude_bind_raised (State.popWord_empty hempty) _)

/-- Settles O36: wherever the ret stands, the word it pops is the pc + 2 that the call pushed. -/
theorem callThenRetReturns : Obligations.CallThenRetReturns := fun s target h hx h1 hroom =>
  ⟨_, h.exec_call hx h1 hroom target, rfl, h.exec_ret_pushed hx hroom (s.pc + 2)⟩

end Sys2Proof.Machine
end

section
/-! ## create, reset and destroy (70_reset_and_hazards.md R290 to R295) -/

namespace Sys2Proof.Machine

section
variable {s t : State} {region : Memory} {memWords stackBottom capacity : Nat} {extJmp extCall : Bool} {input : InputSource}
  {output : List Byte}

/-! ### create -/

/-- What create leaves over `region`, register file and configuration alike (R290). -/
def State.created (region : Memory) (memWords stackBottom capacity : Nat) (extJmp extCall : Bool) (input : InputSource)
    (output : List Byte) : State where
  regA := 0
  regB := 0
  regC := 0
  regD := 0
  result := 0
  pc := 0
  sn := 0
  status := .running
  stackBottom := BitVec.ofNat 32 stackBottom
  capacity := BitVec.ofNat 32 capacity
  stackLimit := BitVec.ofNat 32 (stackBottom - capacity)
  memWords := memWords
  extJmp := extJmp
  extCall := extCall
  memory := region
  live := true
  input := input
  output := output

theorem create_eq (hallowed : createAllowed memWords stackBottom capacity = true) (hwf : region.wf)
    (hin : region.within memWords) : create region memWords stackBottom capacity extJmp extCall input output =
      .next (.created region memWords stackBottom capacity extJmp extCall input output) :=
  if_pos ⟨hallowed, hwf, hin⟩

theorem eq_created_of_create (h : create region memWords stackBottom capacity extJmp extCall input output = .next s) :
    s = .created region memWords stackBottom capacity extJmp extCall input output := by
  obtain ⟨hallowed, hwf, hin⟩ := create_next h
  exact Host.Outcome.next.inj (h.symm.trans (create_eq hallowed hwf hin))

/-- The bounds of create in the numbers of R291 (00_scope.md R6). -/
theorem createAllowed_iff_bounds :
    createAllowed memWords stackBottom capacity = true ↔
      memWords % 1024 = 0 ∧ 1024 ≤ memWords ∧ memWords ≤ 2 ^ 31 - 1024 ∧ capacity ≤ stackBottom ∧
        stackBottom ≤ memWords - 1 := by
  rw [createAllowed_iff, Config.blockWords, Config.maxMemWords]
  omega

/-- Inside the bounds the stack's three words are the exact numbers (10_state.md R35). -/
theorem create_stack (h : create region memWords stackBottom capacity extJmp extCall input output = .next s) :
    s.stackBottom.toInt = stackBottom ∧ s.capacity.toInt = capacity ∧
      s.stackLimit.toInt = (stackBottom : Int) - capacity := by
  obtain ⟨-, hmin, hmax, hcap, hbottom⟩ := createAllowed_iff_bounds.mp (create_next h).1
  obtain rfl := eq_created_of_create h
  refine ⟨toInt_ofNat_of_lt (by omega), toInt_ofNat_of_lt (by omega), ?_⟩
  exact (toInt_ofNat_of_lt (by omega)).trans (by omega)

theorem create_inv (h : create region memWords stackBottom capacity extJmp extCall input output = .next s) : s.Inv := by
  obtain ⟨hallowed, hwf, hin⟩ := create_next h
  obtain ⟨hblocks, hmin, hmax, hcap, hbottom⟩ := createAllowed_iff.mp hallowed
  obtain ⟨hb, hc, hl⟩ := create_stack h
  obtain rfl := eq_created_of_create h
  exact {
    config := {
      blocks := hblocks
      atLeastOneBlock := hmin
      atMost := hmax
      capacityNonneg := by omega
      capacityFits := by omega
      bottomInside := hb.trans_lt (Int.ofNat_lt.mpr hbottom)
      limit := by omega }
    memoryCanonical := hwf
    memoryInside := hin
    snNonneg := le_rfl
    snBounded := hc.symm ▸ Int.natCast_nonneg capacity }

/-! ### reset and destroy -/

/-- What reset makes of a live core (R292, R293). -/
def State.afterReset (s : State) : State :=
  { s with
    memory := s.memory.zeroRange s.stackLimit.toInt s.stackBottom.toInt
    regA := 0
    regB := 0
    regC := 0
    regD := 0
    result := if s.extJmp then 0 else s.result
    sn := 0
    pc := 0
    status := .running }

theorem resetCore_eq (hlive : s.live = true) : resetCore s = .next s.afterReset := resetCore_next.mpr ⟨hlive, rfl⟩

theorem State.afterReset_read (s : State) (a : Nat) :
    s.afterReset.memory.read a =
      if s.stackLimit.toInt ≤ a ∧ (a : Int) ≤ s.stackBottom.toInt then 0 else s.memory.read a :=
  Memory.read_zeroRange _ _ _ _

theorem State.Inv.afterReset (h : s.Inv) : s.afterReset.Inv where
  config := h.config.of_sameConfig (by simp [State.SameConfig, State.afterReset])
  memoryCanonical := Memory.wf_zeroRange _ _ _ h.memoryCanonical
  memoryInside := Memory.within_zeroRange _ _ _ h.memoryInside
  snNonneg := le_rfl
  snBounded := h.config.capacityNonneg

/-- The invariant does not speak of existence. -/
theorem State.Inv.withLive (h : s.Inv) (b : Bool) : ({ s with live := b } : State).Inv := by
  obtain ⟨⟨hblocks, hmin, hmax, hcap, hfits, hbottom, hlimit⟩, hwf, hin, hsn0, hsn⟩ := h
  exact ⟨⟨hblocks, hmin, hmax, hcap, hfits, hbottom, hlimit⟩, hwf, hin, hsn0, hsn⟩

/-! ### The steps of a fresh core -/

/-- What the steps of a core leave of the state `c` they began with: the configuration, every word outside the slots, and
result where no instruction writes it. -/
structure State.StepsFrom (c s : State) : Prop where
  inv : s.Inv
  config : c.SameConfig s
  outsideSlots : ∀ a : Nat, ¬c.IsSlot a → s.memory.read a = c.memory.read a
  deadResult : c.extJmp = false → s.result = c.result

theorem State.Inv.stepsFrom_self (h : s.Inv) : s.StepsFrom s where
  inv := h
  config := by simp [State.SameConfig]
  outsideSlots := fun _ _ => rfl
  deadResult := fun _ => rfl

theorem State.SameConfig.trans {c : State} (hs : c.SameConfig s) (ht : s.SameConfig t) : c.SameConfig t := by
  obtain ⟨h1, h2, h3, h4, h5, h6, h7⟩ := hs
  obtain ⟨k1, k2, k3, k4, k5, k6, k7⟩ := ht
  exact ⟨k1.trans h1, k2.trans h2, k3.trans h3, k4.trans h4, k5.trans h5, k6.trans h6, k7.trans h7⟩

theorem State.SameConfig.isSlot_iff (h : s.SameConfig t) (a : Int) : t.IsSlot a ↔ s.IsSlot a := by
  obtain ⟨hbottom, -, hlimit, -⟩ := h
  rw [State.IsSlot, hbottom, hlimit, State.IsSlot]

theorem step_keeps_deadResult (hs : step s = .next t) (hoff : s.extJmp = false) : t.result = s.result := by
  obtain ⟨-, ⟨-, rfl⟩ | ⟨-, -, rfl⟩ | ⟨-, -, -, rfl⟩ | ⟨-, -, i, rest, -, he⟩⟩ := step_cases hs
  · rfl
  · rfl
  · rfl
  · by_contra hne
    have hon := (resultWriters i s t he hne).1
    exact absurd (hoff.symm.trans hon) nofun

theorem State.StepsFrom.step {c : State} (h : c.StepsFrom s) (hs : step s = .next t) : c.StepsFrom t where
  inv := step_keeps_inv h.inv hs
  config := h.config.trans (stepAndResetKeepTheConfiguration s t (.inl hs))
  outsideSlots a ha := by
    have hsame : t.memory.read a = s.memory.read a := by
      by_contra hne
      exact ha ((h.config.isSlot_iff a).mp (step_writes_isSlot h.inv hs hne))
    exact hsame.trans (h.outsideSlots a ha)
  deadResult hoff := by
    obtain ⟨-, -, -, -, hext, -, -⟩ := h.config
    exact (step_keeps_deadResult hs (hext.trans hoff)).trans (h.deadResult hoff)

theorem State.Inv.stepsFrom_run {c : State} (h : c.Inv) {k : Nat} (hrun : Host.Core.run core k c = .next t) :
    c.StepsFrom t :=
  run_keeps core (P := c.StepsFrom) (fun _ _ hs hstep => hs.step hstep) k c t h.stepsFrom_self hrun

/-- Reset zeroes the whole zone, slots and guard word, where a fresh core holds zeros; the rest still holds what it held. -/
theorem State.StepsFrom.afterReset_memory {c : State} (h : c.StepsFrom s) (hc : c.Fresh) :
    s.afterReset.memory = c.memory := by
  obtain ⟨hbottom, -, hlimit, -⟩ := h.config
  refine Memory.ext_of_read h.inv.afterReset.memoryCanonical hc.inv.memoryCanonical fun a => ?_
  rw [State.afterReset_read, hbottom, hlimit]
  split
  next hzone => exact (hc.stackZone a hzone.1 hzone.2).symm
  next hzone =>
    refine h.outsideSlots a ?_
    rintro ⟨hlo, hhi⟩
    exact hzone ⟨le_of_lt hlo, hhi⟩

theorem State.StepsFrom.afterReset_eq {c : State} (h : c.StepsFrom s) (hc : c.Fresh) :
    s.afterReset = { c with input := s.input, output := s.output } := by
  obtain ⟨hbottom, hcap, hlimit, hwords, hjmp, hcall, hlive⟩ := h.config
  have hresult : s.afterReset.result = c.result := by
    cases hext : c.extJmp with
    | true => exact (if_pos (hjmp.trans hext)).trans hc.result.symm
    | false => exact (if_neg (by simp [hjmp, hext])).trans (h.deadResult hext)
  rw [State.mk.injEq]
  exact ⟨hc.regA.symm, hc.regB.symm, hc.regC.symm, hc.regD.symm, hresult, hc.pc.symm, hc.sn.symm, hc.running.symm, hbottom,
    hcap, hlimit, hwords, hjmp, hcall, h.afterReset_memory hc, hlive, rfl, rfl⟩

end

/-- Settles O55: the steps write slots, registers and devices; reset writes those slots and registers back as create left
them, and canonical memories with the same words are equal. -/
theorem resetAfterAnyRunEqualsCreate : Obligations.ResetAfterAnyRunEqualsCreate := by
  intro c t k hc hrun
  have h := hc.inv.stepsFrom_run hrun
  obtain ⟨-, -, -, -, -, -, hlive⟩ := h.config
  rw [resetCore_eq (hlive.trans hc.live), h.afterReset_eq hc]

/-- Settles O49: reset zeroes memory and sn, destroy writes existence alone, and create makes no core outside its bounds. -/
theorem hostOperationsKeepTheInvariant : Obligations.HostOperationsKeepTheInvariant := by
  refine ⟨?_, fun _ _ _ _ _ _ _ _ _ => create_inv⟩
  rintro s t h (hreset | hdestroy)
  · obtain ⟨-, rfl⟩ := resetCore_next.mp hreset
    exact h.afterReset
  · obtain ⟨-, rfl⟩ := destroy_next.mp hdestroy
    exact h.withLive false

/-- Settles O52: inside the bounds create answers, and no number it stores is changed by its 32 bits. -/
theorem createLeavesTheResetValues : Obligations.CreateLeavesTheResetValues := by
  intro region memWords stackBottom capacity extJmp extCall input output hwf hin hblocks hmin hmax hcap hbottom
  have hallowed := createAllowed_iff_bounds.mpr ⟨hblocks, hmin, hmax, hcap, hbottom⟩
  have hcreate := create_eq (extJmp := extJmp) (extCall := extCall) (input := input) (output := output) hallowed hwf hin
  obtain ⟨hb, hc, hl⟩ := create_stack hcreate
  exact ⟨_, hcreate, hb, hc, hl, rfl⟩

/-- Settles O53: the check of create is the conjunction of the five bounds. -/
theorem createOutsideTheBoundsIsRefused : Obligations.CreateOutsideTheBoundsIsRefused := by
  intro region memWords stackBottom capacity extJmp extCall input output hout
  refine if_neg ?_
  rintro ⟨hallowed, -⟩
  exact hout (createAllowed_iff_bounds.mp hallowed)

/-- Settles O54: of memory, reset writes the zone alone. -/
theorem resetClearsTheStackZone : Obligations.ResetClearsTheStackZone := fun s hlive =>
  ⟨s.afterReset, resetCore_eq hlive, s.afterReset_read, rfl⟩

end Sys2Proof.Machine
end

section
/-! ## The boot image (70_reset_and_hazards.md R300 to R303) -/

namespace Sys2Proof.Machine

section
variable {ws : List Word} {a : Nat}

/-- The words placed from `a` upward lie where the program does, and the zeros among them are not listed. -/
theorem mem_placeWords {p : Nat × Word} (h : p ∈ placeWords a ws) :
    a ≤ p.1 ∧ p.1 < a + ws.length ∧ p.2 ≠ Memory.unlisted := by
  induction ws generalizing a with
  | nil => cases h
  | cons w ws ih =>
    have tail (hp : p ∈ placeWords (a + 1) ws) : a ≤ p.1 ∧ p.1 < a + (w :: ws).length ∧ p.2 ≠ Memory.unlisted := by
      obtain ⟨hlo, hhi, hne⟩ := ih hp
      exact ⟨by omega, by rw [List.length_cons]; omega, hne⟩
    unfold placeWords at h
    split at h
    next => exact tail h
    next hw =>
      rcases List.mem_cons.mp h with rfl | hp
      · exact ⟨le_rfl, Nat.lt_add_of_pos_right (Nat.succ_pos _), hw⟩
      · exact tail hp

theorem placeWords_wf (a : Nat) (ws : List Word) : (placeWords a ws).wf := by
  refine ⟨?_, fun p hp => (mem_placeWords hp).2.2⟩
  induction ws generalizing a with
  | nil => exact .nil
  | cons w ws ih =>
    unfold placeWords
    split
    · exact ih (a + 1)
    · exact .cons (fun p hp => (mem_placeWords hp).1) (ih (a + 1))

/-- Word `j` of the placed words stands at `a + j`, and 0 behind the last. -/
theorem placeWords_read (a : Nat) (ws : List Word) (j : Nat) : (placeWords a ws).read (a + j) = ws[j]?.getD 0 := by
  induction ws generalizing a j with
  | nil => rfl
  | cons w ws ih =>
    cases j with
    | zero =>
      unfold placeWords
      split
      next hw =>
        refine (Memory.read_below _ _ fun p hp => ?_).trans hw.symm
        exact (mem_placeWords hp).1
      next => exact if_pos rfl
    | succ j =>
      have htail : (placeWords (a + 1) ws).read (a + (j + 1)) = ws[j]?.getD 0 := by
        rw [← ih (a + 1) j, Nat.add_right_comm, Nat.add_assoc]
      unfold placeWords
      split
      next => exact htail
      next => rw [Memory.read_cons, if_neg (by omega), htail, List.getElem?_cons_succ]

theorem bootImage_read (program : List Word) (j : Nat) : (bootImage program).read j = program[j]?.getD 0 := by
  rw [bootImage, ← placeWords_read 0 program j, Nat.zero_add]

theorem bootImage_within {program : List Word} {n : Nat} (h : program.length ≤ n) : (bootImage program).within n := by
  intro p hp
  obtain ⟨-, hlt, -⟩ := mem_placeWords hp
  omega

/-- A stream of whole words is packed into one word for every four bytes. -/
theorem packWords_isSome {stream : List Byte} (h : stream.length % 4 = 0) : ∃ ws, packWords stream = some ws :=
  Option.ne_none_iff_exists'.mp fun hnone => (packWords_eq_none_iff stream).mp hnone h

/-- Everything the loader checks, and what it hands over (R301 to R303). -/
theorem load_eq_some_iff {stream : List Byte} {capacity memWords : Nat} {loaded : Loaded} :
    load stream capacity memWords = some loaded ↔
      ∃ program, packWords stream = some program ∧ ¬(program = [] ∧ capacity = 0) ∧
        (memWords % 1024 = 0 ∧ program.length + capacity ≤ memWords ∧ 0 < memWords) ∧
        loaded = ⟨bootImage program, memWords - 1, capacity⟩ := by
  unfold load Config.blockWords
  split
  next hnone => simp [hnone]
  next program hsome =>
    simp only [hsome, Option.some.injEq, exists_eq_left']
    split
    next hempty => simp [hempty]
    next hne =>
      split
      next hfits => simp [hne, hfits, eq_comm]
      next hfits => simp [hfits]

/-- When the loader answers, in terms of the stream: four bytes make a word (R301, R302). -/
theorem exists_load_iff {stream : List Byte} {capacity memWords : Nat} :
    (∃ loaded, load stream capacity memWords = some loaded) ↔
      stream.length % 4 = 0 ∧ ¬(stream = [] ∧ capacity = 0) ∧ memWords % 1024 = 0 ∧ 0 < memWords ∧
        stream.length / 4 + capacity ≤ memWords := by
  simp only [load_eq_some_iff]
  constructor
  · rintro ⟨loaded, program, hpack, hne, ⟨hblocks, hfits, hpos⟩, -⟩
    have hlen := packWords_length hpack
    refine ⟨by omega, ?_, hblocks, hpos, by omega⟩
    rintro ⟨rfl, hcap⟩
    cases hpack
    exact hne ⟨rfl, hcap⟩
  · rintro ⟨hwhole, hne, hblocks, hpos, hfits⟩
    obtain ⟨program, hpack⟩ := packWords_isSome hwhole
    have hlen := packWords_length hpack
    refine ⟨_, program, hpack, ?_, ⟨hblocks, by omega, hpos⟩, rfl⟩
    rintro ⟨rfl, hcap⟩
    exact hne ⟨packWords_eq_some_nil hpack, hcap⟩

end

/-- Settles O60: what the loader hands over is inside the bounds of create, and its image is canonical and inside the region. -/
theorem loadedCoreHoldsTheProgram : Obligations.LoadedCoreHoldsTheProgram := by
  refine ⟨fun _ _ _ => exists_load_iff, fun _ => rfl, ?_⟩
  intro stream ws capacity memWords loaded extJmp extCall input output hpack hload hmax hcap
  obtain ⟨program, hprogram, -, ⟨hblocks, hfits, hpos⟩, rfl⟩ := load_eq_some_iff.mp hload
  obtain rfl : ws = program := Option.some.inj (hpack.symm.trans hprogram)
  have hallowed : createAllowed memWords (memWords - 1) capacity = true :=
    createAllowed_iff_bounds.mpr ⟨hblocks, by omega, hmax, by omega, le_rfl⟩
  have hcreate := create_eq (extJmp := extJmp) (extCall := extCall) (input := input) (output := output) hallowed
    (placeWords_wf 0 ws) (bootImage_within (by omega))
  obtain ⟨hbottom, hcapacity, -⟩ := create_stack hcreate
  exact ⟨_, hcreate, rfl, rfl, by omega, hcapacity, bootImage_read ws⟩

end Sys2Proof.Machine
end

section
/-! ## The decimal text of a word (10_state.md R52, D16) -/

namespace Sys2Proof.Machine

section
variable {fuel n : Nat}

/-- The ASCII digit of a number below ten. -/
theorem toNat_digit (h : n < 10) : (BitVec.ofNat 8 (0x30 + n)).toNat = 0x30 + n := by
  rw [BitVec.toNat_ofNat]
  omega

theorem decDigits_of_lt (h : n < 10) : decDigits (fuel + 1) n = [BitVec.ofNat 8 (0x30 + n)] := if_pos h

theorem decDigits_of_ge (h : ¬n < 10) :
    decDigits (fuel + 1) n = decDigits fuel (n / 10) ++ [BitVec.ofNat 8 (0x30 + n % 10)] := if_neg h

theorem decDigits_ne_nil (fuel n : Nat) : decDigits (fuel + 1) n ≠ [] := by
  by_cases h : n < 10
  · rw [decDigits_of_lt h]
    exact List.cons_ne_nil _ _
  · rw [decDigits_of_ge h]
    exact List.append_ne_nil_of_right_ne_nil _ (List.cons_ne_nil _ _)

theorem isDigit_of_mem_decDigits {d : Byte} (h : d ∈ decDigits fuel n) : isDigit d = true := by
  have digit {m : Nat} (hm : m < 10) (hd : d ∈ [BitVec.ofNat 8 (0x30 + m)]) : isDigit d = true := by
    obtain rfl := List.mem_singleton.mp hd
    rw [isDigit_iff, toNat_digit hm]
    omega
  induction fuel generalizing n with
  | zero => cases h
  | succ fuel ih =>
    by_cases hn : n < 10
    · rw [decDigits_of_lt hn] at h
      exact digit hn h
    · rw [decDigits_of_ge hn] at h
      exact (List.mem_append.mp h).elim ih (digit (Nat.mod_lt n (by decide)))

theorem digitsValue_append_digit (ds : List Byte) (d : Byte) :
    digitsValue (ds ++ [d]) = 10 * digitsValue ds + (d.toNat - 0x30) := by
  rw [digitsValue, List.foldl_append]
  rfl

/-- A number of at most `fuel` digits is the value of its text, which the reference device reads back (R192). -/
theorem digitsValue_decDigits (h : n < 10 ^ fuel) : digitsValue (decDigits fuel n) = n := by
  induction fuel generalizing n with
  | zero =>
    obtain rfl : n = 0 := by omega
    rfl
  | succ fuel ih =>
    by_cases hn : n < 10
    · have hvalue := digitsValue_append_digit [] (BitVec.ofNat 8 (0x30 + n))
      rw [toNat_digit hn] at hvalue
      rw [decDigits_of_lt hn]
      exact hvalue.trans (by rw [Nat.add_sub_cancel_left]; exact Nat.zero_add n)
    · have hquot := ih (n := n / 10) (by rw [pow_succ] at h; omega)
      rw [decDigits_of_ge hn, digitsValue_append_digit, hquot, toNat_digit (Nat.mod_lt n (by decide))]
      omega

/-- The text of a number other than 0 does not begin with a zero. -/
theorem decDigits_head?_ne_zero (hpos : 0 < n) (h : n < 10 ^ fuel) : (decDigits fuel n).head? ≠ some 0x30#8 := by
  induction fuel generalizing n with
  | zero => omega
  | succ fuel ih =>
    by_cases hn : n < 10
    · rw [decDigits_of_lt hn]
      intro hzero
      have hcode := congrArg BitVec.toNat (Option.some.inj hzero)
      rw [toNat_digit hn] at hcode
      have : (0x30#8).toNat = 0x30 := rfl
      omega
    · have hlead := ih (n := n / 10) (by omega) (by rw [pow_succ] at h; omega)
      cases fuel with
      | zero => omega
      | succ fuel => rwa [decDigits_of_ge hn, List.head?_append_of_ne_nil _ (decDigits_ne_nil fuel (n / 10))]

theorem decText_eq (v : Word) :
    decText v = (if v.toInt < 0 then [0x2D#8] else []) ++ decDigits 10 v.toInt.natAbs := by
  unfold decText
  split <;> rfl

/-- No word has more than ten digits. -/
theorem natAbs_toInt_lt (v : Word) : v.toInt.natAbs < 10 ^ 10 := by
  have := BitVec.toInt_lt (x := v)
  have := BitVec.le_toInt v
  omega

end

/-- Settles O27: the digits of the magnitude are the witness; only for 0 do they begin with a zero. -/
theorem decimalTextHasItsShape : Obligations.DecimalTextHasItsShape := by
  intro v
  have hlen := natAbs_toInt_lt v
  refine ⟨decDigits 10 v.toInt.natAbs, decText_eq v, decDigits_ne_nil 9 _,
    fun d hd => isDigit_iff.mp (isDigit_of_mem_decDigits hd), fun hzero => ?_, digitsValue_decDigits hlen⟩
  obtain h0 | hpos := Nat.eq_zero_or_pos v.toInt.natAbs
  · rw [h0]
    rfl
  · exact absurd hzero (decDigits_head?_ne_zero hpos hlen)

end Sys2Proof.Machine
end

section
/-! ## run as a step and the rest of the run (40_cycle.md R128, D17) -/

namespace Sys2Proof.Machine

section
variable {s t u : State} {n r : Int}

/-- Running or not, a run returns the signed count of the loop that starts at 0. -/
theorem runLoop_of_run_next (h : run n s = .next (u, r)) :
    ∃ m, runLoop n.toNat 0 s = .next (u, m) ∧ r = runCount u m := by
  unfold run at h
  split at h
  · split at h
    · split at h
      next v m hloop =>
        cases h
        exact ⟨m, hloop, rfl⟩
      next => cases h
      next => cases h
    next hstop =>
      cases h
      exact ⟨0, runLoop_of_not_running hstop _ _, by simp [runCount]⟩
  · cases h

theorem run_of_not_running (hlive : s.live = true) (hstop : s.status ≠ .running) (n : Int) : run n s = .next (s, 0) := by
  simp only [run, hlive, if_true, if_neg hstop]

theorem run_of_budget_nonpos (hlive : s.live = true) (hrun : s.status = .running) (hn : n ≤ 0) : run n s = .next (s, 0) := by
  have hloop : runLoop n.toNat 0 s = .next (s, 0) := by
    rw [Int.toNat_of_nonpos hn]
    rfl
  exact (run_of_runLoop hlive hrun hloop).trans (by simp [runCount])

/-- One step more, with the sign that the end of the run gives. -/
theorem runCount_succ (u : State) (m : Nat) :
    runCount u (m + 1) = if u.status.isFault then runCount u m - 1 else runCount u m + 1 := by
  unfold runCount
  split <;> push_cast <;> omega

end

/-- Settles O56: with budget left a running core's loop makes one step, and the loop behind it counts from 1 instead of 0. -/
theorem runIsAStepAndTheRest : Obligations.RunIsAStepAndTheRest := by
  intro s n hlive
  refine ⟨fun hnone => ?_, fun t u r hrun hn hstep hrest => ?_⟩
  · by_cases hrun : s.status = .running
    · exact run_of_budget_nonpos hlive hrun (hnone.resolve_left (not_not_intro hrun))
    · exact run_of_not_running hlive hrun n
  · obtain ⟨m, hloop, rfl⟩ := runLoop_of_run_next hrest
    have hbudget : n.toNat = (n - 1).toNat + 1 := by omega
    have hall : runLoop n.toNat 0 s = .next (u, m + 1) := by
      rw [hbudget, runLoop_succ_of_step hrun hstep]
      exact runLoop_shift _ 0 1 t u m hloop
    rw [run_of_runLoop hlive hrun hall, runCount_succ]

end Sys2Proof.Machine
end
